-- ==== Sys2Proof/Word.lean ====
section
/-! DEFINITION. The two unit types of the engine (00_scope.md rule R6): the 32-bit word and the byte.
Additions, subtractions and exclusive ors of words are BitVec's own `+`, `-`, `^^^`, all modulo 2^32 (R7). -/

namespace Sys2Proof

/-- An unsigned 32-bit value (R6). -/
abbrev Word := BitVec 32

/-- An unsigned 8-bit value (R6). -/
abbrev Byte := BitVec 8

/-- `zeros(n)`: n bytes of value 0 (R6). -/
def zeros (n : Nat) : List Byte := List.replicate n 0

end Sys2Proof
end

