-- ==== Sys2Proof/Config.lean ====
section
/-! DEFINITION. What is fixed for the machine and bounds its encodings (00_scope.md rule R5). The other
parameters of R5 stand where they are used: the tables IV, SIGMA, the slot table and MAGIC in
Machine/Constants.lean; the sizes 64, 32, 109 as the numerals the spec's pseudocode writes. -/

namespace Sys2Proof.Config

/-- LEN_MAX, the longest payload of one command (R5, R52; 92_eei_decisions.md D3): all a 16-bit LEN can say. -/
def lenMax : Nat := 65535

/-- The largest NBLK of a core request (30_encoding.md rule R57): all a 16-bit field can say. -/
def blocksMax : Nat := 65535

end Sys2Proof.Config
end

