-- ==== Sys2Proof/Syntax.lean ====
section
/-! DEFINITION. The instructions: one constructor per row of spec/opcode_table.json. -/

namespace Sys2Proof

/-- The commands of format C (30_encoding.md rules R50, R51), the stand-alone core request of format K (R57),
the micro-operation of format U (R59) and the reserved opcodes of format C (R54). A command's payload P is its
operand; LEN is the payload's length and is not stored a second time. -/
inductive Instr where
  /-- INIT: OP 1; the OUTSIZE byte and the key (R101). -/
  | init (outsize : Byte) (key : List Byte)
  /-- INIT128: OP 2; the key (R102). -/
  | init128 (key : List Byte)
  /-- INIT256: OP 3; the key (R103). -/
  | init256 (key : List Byte)
  /-- WRITE: OP 4; the input bytes (R104). -/
  | write (bytes : List Byte)
  /-- SUM: OP 5 (R106). -/
  | sum
  /-- RESET: OP 6 (R108). -/
  | reset
  /-- MARSHAL: OP 7 (R120). -/
  | marshal
  /-- UNMARSHAL: OP 8; the candidate record (R121). -/
  | unmarshal (record : List Byte)
  /-- COMPRESS: the core request, FIN, h_in, c_in and 64*NBLK data bytes (R57, R92). -/
  | compress (fin : Bool) (hIn : Vector Word 8) (cIn : Vector Word 2) (data : List Byte)
  /-- G: the micro-operation U = round << 3 | slot (R59, R83). -/
  | g (round : Fin 10) (slot : Fin 8)
  /-- Reserved opcode 0: the other header fields and the payload (R54). -/
  | reserved0 (rsv : BitVec 4) (outsize : Byte) (payload : List Byte)
  /-- Reserved opcode 9 (R54). -/
  | reserved9 (rsv : BitVec 4) (outsize : Byte) (payload : List Byte)
  /-- Reserved opcode 10 (R54). -/
  | reservedA (rsv : BitVec 4) (outsize : Byte) (payload : List Byte)
  /-- Reserved opcode 11 (R54). -/
  | reservedB (rsv : BitVec 4) (outsize : Byte) (payload : List Byte)
  /-- Reserved opcode 12 (R54). -/
  | reservedC (rsv : BitVec 4) (outsize : Byte) (payload : List Byte)
  /-- Reserved opcode 13 (R54). -/
  | reservedD (rsv : BitVec 4) (outsize : Byte) (payload : List Byte)
  /-- Reserved opcode 14 (R54). -/
  | reservedE (rsv : BitVec 4) (outsize : Byte) (payload : List Byte)
  /-- Reserved opcode 15 (R54). -/
  | reservedF (rsv : BitVec 4) (outsize : Byte) (payload : List Byte)
  deriving DecidableEq, Repr

end Sys2Proof
end

