-- ==== Sys2Proof/WellFormed.lean ====
section
/-! DEFINITION. Which instruction terms the encodings of 30_encoding.md can carry. -/

namespace Sys2Proof

/-- A payload fits the 16-bit LEN field (R50, R52). -/
def payloadFits (p : List Byte) : Bool := p.length ≤ Config.lenMax

/-- A core request's data is a positive whole number of 64-byte blocks that NBLK can count (R57, R92). -/
def dataFits (data : List Byte) : Bool :=
  data.length % 64 = 0 && 1 ≤ data.length / 64 && data.length / 64 ≤ Config.blocksMax

/-- The terms that have an encoding. The OUTSIZE byte of INIT takes every value here: a value outside 1 .. 32 is
encodable and its meaning is the status IllegalCommand (R54, R63 test 4). -/
def Instr.wellFormed : Instr → Bool
  | .init _ key => payloadFits key
  | .init128 key => payloadFits key
  | .init256 key => payloadFits key
  | .write bytes => payloadFits bytes
  | .sum => true
  | .reset => true
  | .marshal => true
  | .unmarshal record => payloadFits record
  | .compress _ _ _ data => dataFits data
  | .g _ _ => true
  | .reserved0 _ _ p => payloadFits p
  | .reserved9 _ _ p => payloadFits p
  | .reservedA _ _ p => payloadFits p
  | .reservedB _ _ p => payloadFits p
  | .reservedC _ _ p => payloadFits p
  | .reservedD _ _ p => payloadFits p
  | .reservedE _ _ p => payloadFits p
  | .reservedF _ _ p => payloadFits p

/-- The instructions presented on the command port (format C): all but COMPRESS and G (R51, R57, R59). -/
def Instr.isCommand : Instr → Bool
  | .compress _ _ _ _ => false
  | .g _ _ => false
  | .init _ _ | .init128 _ | .init256 _ | .write _ | .sum | .reset | .marshal | .unmarshal _ => true
  | .reserved0 _ _ _ | .reserved9 _ _ _ | .reservedA _ _ _ | .reservedB _ _ _ => true
  | .reservedC _ _ _ | .reservedD _ _ _ | .reservedE _ _ _ | .reservedF _ _ _ => true

end Sys2Proof
end

