-- ==== Sys2Proof/Decode.lean ====
section
/-! DEFINITION. The encodings of 30_encoding.md: the words of each format, the decoder (total, rejecting by
name), the encoder, and the byte-serial transport of R64. -/

namespace Sys2Proof

/-- What the host presents on a port: a command (W, P) of format C (R50), or a core request of format K with its
operand words and data (R57). -/
inductive Request where
  | command (W : Word) (P : List Byte)
  | core (K : Word) (hIn : Vector Word 8) (cIn : Vector Word 2) (data : List Byte)
  deriving DecidableEq, Repr

/-- The words of any instruction: a request on a port, or a micro-operation index of format U, which is never
presented on a port (R59). -/
inductive Words where
  | port (q : Request)
  | micro (U : BitVec 7)
  deriving DecidableEq, Repr

/-- The tests of R63 that reject a command whose words are no row of the opcode table. (The other words of R63,
a reserved OP and an INIT with a reserved OUTSIZE, are rows of the table: they decode to their constructor, whose
meaning raises the same IllegalCommand.) -/
inductive Illegal where
  /-- R63 test 1: OP is 1 .. 8 and RSV is not 0. -/
  | reservedBits
  /-- R63 test 2: OP is 2 .. 8 and OUTSIZE is not 0. -/
  | outsizeNotZero
  /-- R63 test 3: SUM, RESET or MARSHAL with LEN not 0. -/
  | payloadNotEmpty
  deriving DecidableEq, Repr

/-- Why words are no instruction. -/
inductive Reject where
  /-- len(P) differs from LEN: not a command, the port cannot deliver it (R50). -/
  | payloadLength
  /-- An illegal command, answered with IllegalCommand (R54, R141). -/
  | illegal (why : Illegal)
  /-- Bits 15:1 of a core request are not 0 (R57). -/
  | coreReservedBits
  /-- A core request of no block (R57). -/
  | coreNoBlock
  /-- A core request whose data is not exactly 64*NBLK bytes (R57). -/
  | coreDataLength
  /-- A micro-operation of round 10 .. 15, which never occurs (R59). -/
  | microRound
  deriving DecidableEq, Repr

/-! ### Format C -/

/-- OP, bits 3:0 of W (R50). -/
def opField (W : Word) : BitVec 4 := W.extractLsb' 0 4
/-- RSV, bits 7:4 of W (R50). -/
def rsvField (W : Word) : BitVec 4 := W.extractLsb' 4 4
/-- OUTSIZE, bits 15:8 of W (R50). -/
def outsizeField (W : Word) : Byte := W.extractLsb' 8 8
/-- LEN, bits 31:16 of W (R50), unsigned and unscaled (R52). -/
def lenField (W : Word) : BitVec 16 := W.extractLsb' 16 16

/-- The header word with the four fields of R50. -/
def headerWord (op rsv : BitVec 4) (outsize : Byte) (len : Nat) : Word :=
  BitVec.ofNat 16 len ++ outsize ++ rsv ++ op

/-- INIT's row fixes RSV = 0 and leaves OUTSIZE free (R51). -/
def whenRsvZero (W : Word) (i : Instr) : Except Reject Instr :=
  if rsvField W ≠ 0 then .error (.illegal .reservedBits) else .ok i

/-- The rows that fix RSV = 0 and OUTSIZE = 0 (R63 tests 1 and 2). -/
def whenPlain (W : Word) (i : Instr) : Except Reject Instr :=
  if rsvField W ≠ 0 then .error (.illegal .reservedBits)
  else if outsizeField W ≠ 0 then .error (.illegal .outsizeNotZero)
  else .ok i

/-- The rows that also fix LEN = 0 (R63 tests 1, 2 and 3). -/
def whenBare (W : Word) (i : Instr) : Except Reject Instr :=
  if rsvField W ≠ 0 then .error (.illegal .reservedBits)
  else if outsizeField W ≠ 0 then .error (.illegal .outsizeNotZero)
  else if lenField W ≠ 0 then .error (.illegal .payloadNotEmpty)
  else .ok i

/-- The command of a pair (W, P) (R50, R51, R54, R63). -/
def decodeCommand (W : Word) (P : List Byte) : Except Reject Instr :=
  if P.length ≠ (lenField W).toNat then .error .payloadLength
  else match (opField W).toNat with
    | 0 => .ok (.reserved0 (rsvField W) (outsizeField W) P)
    | 1 => whenRsvZero W (.init (outsizeField W) P)
    | 2 => whenPlain W (.init128 P)
    | 3 => whenPlain W (.init256 P)
    | 4 => whenPlain W (.write P)
    | 5 => whenBare W .sum
    | 6 => whenBare W .reset
    | 7 => whenBare W .marshal
    | 8 => whenPlain W (.unmarshal P)
    | 9 => .ok (.reserved9 (rsvField W) (outsizeField W) P)
    | 10 => .ok (.reservedA (rsvField W) (outsizeField W) P)
    | 11 => .ok (.reservedB (rsvField W) (outsizeField W) P)
    | 12 => .ok (.reservedC (rsvField W) (outsizeField W) P)
    | 13 => .ok (.reservedD (rsvField W) (outsizeField W) P)
    | 14 => .ok (.reservedE (rsvField W) (outsizeField W) P)
    | _ => .ok (.reservedF (rsvField W) (outsizeField W) P)

/-! ### Format K -/

/-- FIN, bit 0 of K (R57). -/
def finField (K : Word) : Bool := K.getLsbD 0
/-- Bits 15:1 of K, reserved (R57). -/
def coreReserved (K : Word) : BitVec 15 := K.extractLsb' 1 15
/-- NBLK, bits 31:16 of K (R57). -/
def nblkField (K : Word) : BitVec 16 := K.extractLsb' 16 16

/-- The request word with the fields of R57. -/
def coreWord (fin : Bool) (nblk : Nat) : Word :=
  BitVec.ofNat 16 nblk ++ 0#15 ++ BitVec.ofBool fin

/-- The core request (R57): nonzero reserved bits, NBLK = 0 and any other length of data are refused. -/
def decodeCore (K : Word) (hIn : Vector Word 8) (cIn : Vector Word 2) (data : List Byte) :
    Except Reject Instr :=
  if coreReserved K ≠ 0 then .error .coreReservedBits
  else if nblkField K = 0 then .error .coreNoBlock
  else if data.length ≠ 64 * (nblkField K).toNat then .error .coreDataLength
  else .ok (.compress (finField K) hIn cIn data)

/-! ### Format U -/

/-- S, bits 2:0 of U (R59). -/
def slotField (U : BitVec 7) : BitVec 3 := U.extractLsb' 0 3
/-- RND, bits 6:3 of U (R59). -/
def roundField (U : BitVec 7) : BitVec 4 := U.extractLsb' 3 4

/-- The micro-operation index of a round and a slot (R59; 92_eei_decisions.md D16). -/
def microWord (round : Fin 10) (slot : Fin 8) : BitVec 7 :=
  BitVec.ofNat 4 round.val ++ BitVec.ofNat 3 slot.val

/-- The G of a micro-operation index (R59): RND = 10 .. 15 is refused. -/
def decodeMicro (U : BitVec 7) : Except Reject Instr :=
  if h : (roundField U).toNat < 10 then
    .ok (.g ⟨(roundField U).toNat, h⟩ ⟨(slotField U).toNat, (slotField U).isLt⟩)
  else .error .microRound

/-! ### All formats -/

/-- The instruction of a request on a port. -/
def decodeRequest : Request → Except Reject Instr
  | .command W P => decodeCommand W P
  | .core K hIn cIn data => decodeCore K hIn cIn data

/-- The decoder. -/
def decode : Words → Except Reject Instr
  | .port q => decodeRequest q
  | .micro U => decodeMicro U

/-- The words of a command with this OP and these other fields. -/
def commandWords (op rsv : BitVec 4) (outsize : Byte) (P : List Byte) : Words :=
  .port (.command (headerWord op rsv outsize P.length) P)

/-- The encoder, from the same tables (R51, R57, R59, R54). -/
def encode : Instr → Words
  | .init outsize key => commandWords 1 0 outsize key
  | .init128 key => commandWords 2 0 0 key
  | .init256 key => commandWords 3 0 0 key
  | .write bytes => commandWords 4 0 0 bytes
  | .sum => commandWords 5 0 0 []
  | .reset => commandWords 6 0 0 []
  | .marshal => commandWords 7 0 0 []
  | .unmarshal record => commandWords 8 0 0 record
  | .compress fin hIn cIn data => .port (.core (coreWord fin (data.length / 64)) hIn cIn data)
  | .g round slot => .micro (microWord round slot)
  | .reserved0 rsv outsize p => commandWords 0 rsv outsize p
  | .reserved9 rsv outsize p => commandWords 9 rsv outsize p
  | .reservedA rsv outsize p => commandWords 10 rsv outsize p
  | .reservedB rsv outsize p => commandWords 11 rsv outsize p
  | .reservedC rsv outsize p => commandWords 12 rsv outsize p
  | .reservedD rsv outsize p => commandWords 13 rsv outsize p
  | .reservedE rsv outsize p => commandWords 14 rsv outsize p
  | .reservedF rsv outsize p => commandWords 15 rsv outsize p

/-! ### The byte-serial transport -/

/-- A command as bytes: W least significant byte first, then P in index order (R64). -/
def serialise (W : Word) (P : List Byte) : List Byte :=
  W.extractLsb' 0 8 :: W.extractLsb' 8 8 :: W.extractLsb' 16 8 :: W.extractLsb' 24 8 :: P

/-- Reads W, then LEN payload bytes; the next command starts after them (R50, R64). `none` while bytes are still
missing. -/
def deserialise : List Byte → Option (Request × List Byte)
  | b0 :: b1 :: b2 :: b3 :: rest =>
    let W : Word := b3 ++ b2 ++ b1 ++ b0
    let n := (lenField W).toNat
    if rest.length < n then none else some (.command W (rest.take n), rest.drop n)
  | _ => none

/-! ### The host's numbering of the opcode table's words -/

/-- The words that a table row's bits `w` stand for, every operand byte above them zero. Format U is the one row of
at most a byte; a 32-bit word that is a legal core request (bits 15:1 zero, NBLK not 0) is read in format K, any
other in format C. No legal command is a legal core request: with bits 15:1 zero, OP is 0, or OP is 1 and OUTSIZE
is 0. (notes/assumptions/6.md) -/
def tableWords (nbits w : Nat) : Words :=
  if nbits ≤ 8 then .micro (BitVec.ofNat 7 w)
  else
    let W : Word := BitVec.ofNat 32 w
    if coreReserved W = 0 ∧ nblkField W ≠ 0 then
      .port (.core W (Vector.replicate 8 0) (Vector.replicate 2 0) (zeros (64 * (nblkField W).toNat)))
    else .port (.command W (zeros (lenField W).toNat))

/-- The instruction the decoder reads from a table row's word. -/
def decodeTableWord (nbits w : Nat) : Option Instr :=
  match decode (tableWords nbits w) with
  | .ok i => some i
  | .error _ => none

end Sys2Proof
end

