-- ==== Sys2Proof/Machine/State.lean ====
section
/-! DEFINITION. The engine's state (10_state.md rules R10 to R22), its ports, the reasons it can stop, and the
state after power-on. Plain data. -/

namespace Sys2Proof.Machine

/-- The status of a response (30_encoding.md rule R56; causes in 60_exceptions.md rule R130). An error status is the
engine's only exceptional event; it is a response, not a stop. -/
inductive Status where
  | ok
  | invalidKeySize
  | keyRequired
  | cannotMarshalKeyedState
  | invalidStateIdentifier
  | invalidStateSize
  | illegalCommand
  | notConstructed
  | invalidStateField
  deriving DecidableEq, Repr

/-- The engine never stops with a fault, so there is no fault: every command terminates and answers once (R46, R131;
93_implementation_defined.md part 1: `stuck` is not used). Safe: nothing raises it. -/
inductive Fault where
  deriving DecidableEq, Repr

/-- Where the spec gives a model no step. -/
inductive Refusal where
  /-- Raised by `exec` alone, for an instruction without a meaning (safe). -/
  | notModelled (mnemonic : String)
  /-- Raised by `step` on words that are no instruction and no illegal command: a pair (W, P) with len(P) other than
  LEN (R50), a core request outside the contract (R57), a micro-operation of round 10 .. 15 (R59). The spec says
  refuse (U2, U11, U12) (safe). -/
  | rejected (why : Reject)
  /-- Raised by COMPRESS on data that is not a positive whole number of 64-byte blocks (R92, R154, U2) (safe). -/
  | coreContract
  /-- Raised by G while no compression is in progress: v holds no value then (R16, D30), and G is never presented on
  a port (R59) (safe). -/
  | coreIdle
  deriving DecidableEq, Repr

/-- What a compression carries from block to block: a hash state and a counter (R93). -/
structure Chain where
  /-- the hash words, R10 -/
  h : Vector Word 8
  /-- the counter words, c[0] low and c[1] high, R11 -/
  c : Vector Word 2
  deriving DecidableEq, Repr

/-- The finalisation shadow: SUM's copies of h, c and the zero-padded buffer (R18). -/
structure Shadow where
  hs : Vector Word 8
  cs : Vector Word 2
  bs : Vector Byte 64
  deriving DecidableEq, Repr

/-- The Compression Core in the middle of one COMPRESS: the state that exists only inside it (R16, R17, R19). -/
structure CoreRun where
  /-- the hash words before the current block's fold, and the counter after its advance -/
  chain : Chain
  /-- FIN, the finalize flag selector (R58) -/
  fin : Bool
  /-- blk, the index of the block being compressed (R19) -/
  blk : Nat
  /-- the data of the blocks after this one -/
  rest : List Byte
  /-- the working words v[0..15] (R16) -/
  v : Vector Word 16
  /-- the message words m[0..15] (R17) -/
  m : Vector Word 16
  /-- U, the micro-operation the sequencer is at: round and slot (R19, R59) -/
  u : BitVec 7
  deriving DecidableEq, Repr

/-- What the outside world can do to an engine: present a request (R50, R57), or apply power-on reset (R150). Commands
and core requests share one order of issue (DESIGN CHOICE, notes/assumptions/18.md). -/
inductive Input where
  | request (q : Request)
  | powerOn
  deriving DecidableEq, Repr

/-- What the engine gives back: a response (R, Q) of format R (R55), or a core result h_out, c_out (R57). -/
inductive Response where
  | command (R : Word) (Q : List Byte)
  | core (hOut : Vector Word 8) (cOut : Vector Word 2)
  deriving DecidableEq, Repr

/-- One engine instance. -/
structure State where
  /-- HashState h[0..7] (R10) -/
  h : Vector Word 8
  /-- ByteCounter c[0..1] (R11) -/
  c : Vector Word 2
  /-- PendingBlock block[0..63], stale bytes included (R12) -/
  block : Vector Byte 64
  /-- PendingBlock offset, 0 .. 64 (R12) -/
  offset : Fin 65
  /-- the output size in bytes, 1 .. 32 once constructed (R13) -/
  size : Fin 33
  /-- the key length, 0 .. 32 (R14) -/
  keylen : Fin 33
  /-- the key register key[0..31] (R14) -/
  key : Vector Byte 32
  /-- the engine holds a digest object (R15) -/
  constructed : Bool
  /-- the SUM copies (R18): there only inside a SUM -/
  shadow : Option Shadow
  /-- v, m and the sequencer (R16, R17, R19): there only inside a COMPRESS -/
  inside : Option CoreRun
  /-- the host's inputs, in the order it issues them, the next one first (R41) -/
  inbox : List Input
  /-- the responses given so far, in order (R55) -/
  outbox : List Response
  deriving DecidableEq, Repr

/-- The engine right after power-on (R23, R150): constructed is 0 and no command is in flight. The spec gives the
other registers no value; the zeros are this model's choice (DESIGN CHOICE, notes/assumptions/1.md) and no command
reads them before writing them. -/
def State.reset : State where
  h := Vector.replicate 8 0
  c := Vector.replicate 2 0
  block := Vector.replicate 64 0
  offset := 0
  size := 0
  keylen := 0
  key := Vector.replicate 32 0
  constructed := false
  shadow := none
  inside := none
  inbox := []
  outbox := []

end Sys2Proof.Machine
end

