-- ==== Sys2Proof/Machine/Operands.lean ====
section
/-! DEFINITION. Every operand form: word and byte-string primitives (00_scope.md rules R7, R8), the parameter word,
the block and its message words, the digest, the response header. -/

namespace Sys2Proof.Machine

/-- `rotr32(x, n)` for 0 < n < 32 (R7). -/
def rotr32 (x : Word) (n : Nat) : Word := (x >>> n) ||| (x <<< (32 - n))

/-- LE32: least significant byte first (R8). -/
def le32 (w : Word) : List Byte :=
  [w.extractLsb' 0 8, w.extractLsb' 8 8, w.extractLsb' 16 8, w.extractLsb' 24 8]

/-- BE32: most significant byte first (R8). -/
def be32 (w : Word) : List Byte :=
  [w.extractLsb' 24 8, w.extractLsb' 16 8, w.extractLsb' 8 8, w.extractLsb' 0 8]

/-- The word of four bytes in little-endian order (R8 leword). -/
def leword (b0 b1 b2 b3 : Byte) : Word := b3 ++ b2 ++ b1 ++ b0

/-- The word of four bytes in big-endian order (R8 beword). -/
def beword (b0 b1 b2 b3 : Byte) : Word := b0 ++ b1 ++ b2 ++ b3

/-- `beword(p, i)` on a payload (R8). -/
def bewordAt (p : List Byte) (i : Nat) : Word :=
  beword (p.getD i 0) (p.getD (i + 1) 0) (p.getD (i + 2) 0) (p.getD (i + 3) 0)

/-- Byte i + t of a register takes p[t], for t = 0 .. len(p)-1, within the register; no other byte changes. -/
def writeBytes {n : Nat} (reg : Vector Byte n) (i : Nat) : List Byte → Vector Byte n
  | [] => reg
  | b :: rest => writeBytes (reg.setIfInBounds i b) (i + 1) rest

/-- The first n bytes of a byte string as an n-byte register, zero-padded when it is shorter: the key register
(R14), the first block of a payload (R92), SUM's padded buffer (R106). -/
def padded (n : Nat) (p : List Byte) : Vector Byte n := writeBytes (Vector.replicate n 0) 0 p

/-- m[i] = leword(blk, 4*i) (20_memory.md rule R31, 40_compression_core.md rule R89). -/
def messageWord (blk : Vector Byte 64) (i : Fin 16) : Word :=
  leword blk[4 * i.val] blk[4 * i.val + 1] blk[4 * i.val + 2] blk[4 * i.val + 3]

/-- The message parse (R89). -/
def messageWords (blk : Vector Byte 64) : Vector Word 16 := Vector.ofFn (messageWord blk)

/-- The parameter word PW: digest length, key length, fan-out 1, depth 1 (30_encoding.md rule R60). -/
def parameterWord (size keylen : Nat) : Word :=
  BitVec.ofNat 32 size ||| (BitVec.ofNat 32 keylen <<< 8) ||| ((1#32) <<< 16) ||| ((1#32) <<< 24)

/-- The digest output: the hash words little-endian, truncated to `size` bytes (R62, R32). -/
def digestBytes (h : Vector Word 8) (size : Nat) : List Byte := (h.toList.flatMap le32).take size

/-- The number of a status (R56). -/
def Status.code : Status → Byte
  | .ok => 0
  | .invalidKeySize => 1
  | .keyRequired => 2
  | .cannotMarshalKeyedState => 3
  | .invalidStateIdentifier => 4
  | .invalidStateSize => 5
  | .illegalCommand => 6
  | .notConstructed => 7
  | .invalidStateField => 8

/-- The response header: STATUS in bits 7:0, QLEN in bits 31:16 (R55). -/
def responseHeader (S : Status) (Q : List Byte) : Word := BitVec.ofNat 16 Q.length ++ 0#8 ++ S.code

end Sys2Proof.Machine
end

