-- ==== Sys2Proof/Machine/Flags.lean ====
section
/-! DEFINITION. Every one-bit condition of the engine (10_state.md rule R20): the finalize flag, the carry of the
counter advance, the borrow of SUM's correction, keyed. -/

namespace Sys2Proof.Machine

/-- FIN replicated to 32 bits (30_encoding.md rule R58). -/
def finalizeFlag (fin : Bool) : Word := if fin then 0xFFFFFFFF#32 else 0#32

/-- The 64-bit value of the counter, c[0] + 2^32 * c[1] (R11). -/
def counterValue (ctr : Vector Word 2) : Nat := ctr[0].toNat + 2 ^ 32 * ctr[1].toNat

/-- The counter advance by 64 with carry (40_compression_core.md rule R87). -/
def counterAdvance (ctr : Vector Word 2) : Vector Word 2 :=
  let lo := ctr[0] + 64#32
  #v[lo, if lo < 64#32 then ctr[1] + 1#32 else ctr[1]]

/-- SUM's backward correction by the unused bytes of the final block, with borrow (41_streaming_digest.md rule R106):
the compare is on the old c[0]. -/
def counterCorrect (ctr : Vector Word 2) (rem : Nat) : Vector Word 2 :=
  #v[ctr[0] - BitVec.ofNat 32 rem, if ctr[0] < BitVec.ofNat 32 rem then ctr[1] - 1#32 else ctr[1]]

/-- The predicate keyed: keylen > 0 (R20). -/
def State.keyed (s : State) : Bool := decide (0 < s.keylen.val)

end Sys2Proof.Machine
end

