-- ==== Sys2Proof/Machine/Compression.lean ====
section
/-! DEFINITION. The Compression Core as a pure function (40_compression_core.md): G, ROUND, COMPRESS1, COMPRESS, and the
sequencer that takes one G at a time through a COMPRESS (10_state.md rule R19). -/

namespace Sys2Proof.Machine

/-- The eight assignments of G on the four words (v[a], v[b], v[c], v[d]) and the message words x, y (R83). -/
def gWords (a b c d x y : Word) : Word × Word × Word × Word :=
  let a := a + b + x
  let d := rotr32 (d ^^^ a) 16
  let c := c + d
  let b := rotr32 (b ^^^ c) 12
  let a := a + b + y
  let d := rotr32 (d ^^^ a) 8
  let c := c + d
  let b := rotr32 (b ^^^ c) 7
  (a, b, c, d)

/-- G in round r and slot s: its operands by the slot table, its four results written back (R83, R84). -/
def gStep (m : Vector Word 16) (r : Fin 10) (s : Fin 8) (v : Vector Word 16) : Vector Word 16 :=
  match slotIndices[s] with
  | (a, b, c, d) =>
    match gWords v[a] v[b] v[c] v[d] m[xIndex r s] m[yIndex r s] with
    | (va, vb, vc, vd) => (((v.set a va).set b vb).set c vc).set d vd

/-- ROUND(r): the eight G in slot order (R85). -/
def roundStep (m : Vector Word 16) (v : Vector Word 16) (r : Fin 10) : Vector Word 16 :=
  (List.finRange 8).foldl (fun v s => gStep m r s v) v

/-- The ten rounds in order (R91). -/
def tenRounds (m : Vector Word 16) (v : Vector Word 16) : Vector Word 16 :=
  (List.finRange 10).foldl (roundStep m) v

/-- The working-vector load: h, IV, the advanced counter into v[12] and v[13], the flag into v[14] only (R88). -/
def loadWork (h : Vector Word 8) (ctr : Vector Word 2) (f : Word) : Vector Word 16 :=
  (((h ++ iv).set 12 (iv[4] ^^^ ctr[0])).set 13 (iv[5] ^^^ ctr[1])).set 14 (iv[6] ^^^ f)

/-- The fold: h[i] ^ v[i] ^ v[i+8] (R90). -/
def foldWork (h : Vector Word 8) (v : Vector Word 16) : Vector Word 8 :=
  Vector.ofFn fun i : Fin 8 => h[i] ^^^ v[i.val] ^^^ v[i.val + 8]

/-- COMPRESS1, one block: counter advance, load, parse, ten rounds, fold (R91). -/
def compress1 (f : Word) (x : Chain) (blk : Vector Byte 64) : Chain :=
  let c := counterAdvance x.c
  { h := foldWork x.h (tenRounds (messageWords blk) (loadWork x.h c f)), c := c }

/-- COMPRESS of the first N blocks of data, left to right, the same f for each (R92). -/
def compressBlocks (f : Word) : Nat → Chain → List Byte → Chain
  | 0, x, _ => x
  | n + 1, x, data => compressBlocks f n (compress1 f x (padded 64 data)) (data.drop 64)

/-- COMPRESS of all the 64-byte blocks of data (R92). -/
def compress (f : Word) (x : Chain) (data : List Byte) : Chain := compressBlocks f (data.length / 64) x data

/-! ### The sequencer -/

/-- Block number blk begins: counter advance, load, parse; the sequencer at round 0, slot 0 (R19, R91). -/
def CoreRun.beginBlock (fin : Bool) (blk : Nat) (x : Chain) (data : List Byte) : CoreRun :=
  let c := counterAdvance x.c
  { chain := { h := x.h, c := c }, fin := fin, blk := blk, rest := data.drop 64,
    v := loadWork x.h c (finalizeFlag fin), m := messageWords (padded 64 data), u := 0 }

/-- A COMPRESS begins: block 0 of its data. -/
def CoreRun.start (fin : Bool) (x : Chain) (data : List Byte) : CoreRun := CoreRun.beginBlock fin 0 x data

/-- The hash state and counter after the fold of the current block (R90, R91). -/
def CoreRun.folded (run : CoreRun) : Chain := { h := foldWork run.chain.h run.v, c := run.chain.c }

/-- No compression has been started: every register of the core at zero (used only to place a micro-operation where
no compression is in progress). -/
def CoreRun.blank : CoreRun where
  chain := { h := Vector.replicate 8 0, c := Vector.replicate 2 0 }
  fin := false
  blk := 0
  rest := []
  v := Vector.replicate 16 0
  m := Vector.replicate 16 0
  u := 0

end Sys2Proof.Machine
end

