-- ==== Sys2Proof/Machine/Ops.lean ====
section
/-! DEFINITION. The named operations over the engine's registers that the meanings share: the response and the error
response (the engine's only exception), the buffer write, SEED and construction, the chain registers, the SUM shadow,
the sequencer's advance, power-on reset.

The engine has no addressable memory (20_memory.md rule R30), so there are no load and store operations. -/

namespace Sys2Proof.Machine

/-! ### Responses, and taking an exception -/

/-- `respond(S, Q)`: the command ends with status S and payload Q (00_scope.md rule R8, 30_encoding.md rule R55). -/
def State.respond (S : Status) (Q : List Byte) (s : State) : State :=
  { s with outbox := s.outbox ++ [.command (responseHeader S Q) Q] }

/-- `raise E`, the engine's only exception entry: the command ends with status E and an empty payload, nothing is saved
and no state changes (R8; 60_exceptions.md rules R131, R132, R135). There is no return from it: nothing is to be
restored, and the next command is executed as if the failing one had not been issued (R136). -/
def raise (E : Status) (s : State) : Host.Outcome State Fault Refusal := .next (s.respond E [])

/-- The command ends with status OK and payload Q. -/
def succeed (Q : List Byte) (s : State) : Host.Outcome State Fault Refusal := .next (s.respond .ok Q)

/-- The commands that need a digest object: NotConstructed while constructed is 0 (10_state.md rule R15, R142). -/
def whenConstructed (s : State) (body : State → Host.Outcome State Fault Refusal) :
    Host.Outcome State Fault Refusal :=
  if s.constructed then body s else raise .notConstructed s

/-! ### The pending buffer -/

/-- The buffer write `block[i .. i+len(p)-1] <- p` (20_memory.md rule R38): no other byte changes. -/
def bufferWrite (block : Vector Byte 64) (i : Nat) (p : List Byte) : Vector Byte 64 := writeBytes block i p

/-- The buffered bytes block[0 .. offset-1], in input order (R12). -/
def State.buffered (s : State) : List Byte := s.block.toList.take s.offset.val

/-! ### The chain registers -/

/-- The live h and c, as COMPRESS takes them. -/
def State.chain (s : State) : Chain := { h := s.h, c := s.c }

/-- COMPRESS(h, c, 0, data) on the live h and c: an interior compression of WRITE (41_streaming_digest.md rule R104). -/
def State.absorb (data : List Byte) (s : State) : State :=
  let x := compress (finalizeFlag false) s.chain data
  { s with h := x.h, c := x.c }

/-! ### SEED and construction -/

/-- SEED: h, c, offset and, when keyed, block at their post-construction values for the stored size, keylen and
key (41_streaming_digest.md rule R100). -/
def State.seed (s : State) : State :=
  let h := iv.set 0 (iv[0] ^^^ parameterWord s.size.val s.keylen.val)
  if s.keyed then
    { s with
      h := h, c := #v[0, 0]
      block := bufferWrite (bufferWrite s.block 0 s.key.toList) 32 (zeros 32)
      offset := 64 }
  else
    { s with h := h, c := #v[0, 0], offset := 0 }

/-- The configuration of INIT(z, P), and an all-zero buffer (R101; 92_eei_decisions.md D10, D21). -/
def State.configure (z : Fin 33) (P : List Byte) (s : State) : State :=
  { s with
    size := z, keylen := Fin.ofNat 33 P.length, key := padded 32 P
    block := Vector.replicate 64 0 }

/-- INIT from its second line on: output size z, key P of at most 32 bytes (R101). -/
def State.construct (z : Fin 33) (P : List Byte) (s : State) : State :=
  { (s.configure z P).seed with constructed := true }

/-- Construction with the key-length check before anything is written (R101, R102, R103). -/
def constructChecked (z : Fin 33) (P : List Byte) (s : State) : Host.Outcome State Fault Refusal :=
  if 32 < P.length then raise .invalidKeySize s else succeed [] (s.construct z P)

/-! ### The SUM shadow (R18) -/

/-- SUM's copies are made: h, c with the backward correction, the buffer zero-padded past offset (R106). -/
def State.openShadow (s : State) : State :=
  { s with
    shadow := some
      { hs := s.h
        cs := counterCorrect s.c (64 - s.offset.val)
        bs := padded 64 s.buffered } }

/-- COMPRESS(hs, cs, 0xFFFFFFFF, bs): exactly one block, on the copies (R106). -/
def State.finaliseShadow (s : State) : State :=
  match s.shadow with
  | some sh =>
    let x := compress1 (finalizeFlag true) { h := sh.hs, c := sh.cs } sh.bs
    { s with shadow := some { sh with hs := x.h, cs := x.c } }
  | none => s

/-- The digest read out of the copies (R106, R62). -/
def State.shadowDigest (s : State) : List Byte :=
  match s.shadow with
  | some sh => digestBytes sh.hs s.size.val
  | none => []

/-- The copies are dead (R18; 92_eei_decisions.md D30). -/
def State.closeShadow (s : State) : State := { s with shadow := none }

/-! ### The sequencer (R19) -/

/-- After a micro-operation the sequencer advances by one: the slot fastest, then the round, then, after the fold of
the finished block, the block (10_state.md rule R19, 40_compression_core.md rule R91). After the last block the core
gives its result and the sequencer holds nothing. -/
def State.advanceSequencer (s : State) : State :=
  match s.inside with
  | none => s
  | some run =>
    if run.u.toNat < 79 then { s with inside := some { run with u := run.u + 1 } }
    else if 64 ≤ run.rest.length then
      { s with inside := some (CoreRun.beginBlock run.fin (run.blk + 1) run.folded run.rest) }
    else { s with inside := none, outbox := s.outbox ++ [.core run.folded.h run.folded.c] }

/-! ### Power-on reset -/

/-- Power-on reset of a running engine (70_reset_and_hazards.md rule R150): constructed is 0, no response is produced,
no command is in flight; the other registers hold no value, which this model writes as the values of `State.reset`
(DESIGN CHOICE, notes/assumptions/1.md). The host's further inputs and the responses it has received are the host's. -/
def State.powerOn (s : State) : State := { State.reset with inbox := s.inbox, outbox := s.outbox }

end Sys2Proof.Machine
end

