-- ==== Sys2Proof/Machine/Construct.lean ====
section
/-! DEFINITION. INIT, INIT128, INIT256 (41_streaming_digest.md rules R101 to R103). -/

namespace Sys2Proof.Machine

/-- INIT: an OUTSIZE outside 1 .. 32 is an illegal command (30_encoding.md rules R54, R63 test 4), before any look at
the payload (60_exceptions.md rule R133); then a key over 32 bytes fails; then the digest is constructed (R101). -/
def execInit (outsize : Byte) (key : List Byte) (s : State) : Host.Outcome State Fault Refusal :=
  if h : 1 ≤ outsize.toNat ∧ outsize.toNat ≤ 32 then
    constructChecked ⟨outsize.toNat, Nat.lt_succ_of_le h.2⟩ key s
  else raise .illegalCommand s

/-- INIT128: size 16, and the key is required (R102). -/
def execInit128 (key : List Byte) (s : State) : Host.Outcome State Fault Refusal :=
  if key.length = 0 then raise .keyRequired s else constructChecked 16 key s

/-- INIT256: size 32 (R103). -/
def execInit256 (key : List Byte) (s : State) : Host.Outcome State Fault Refusal :=
  constructChecked 32 key s

end Sys2Proof.Machine
end

