-- ==== Sys2Proof/Machine/CorePort.lean ====
section
/-! DEFINITION. COMPRESS on the stand-alone core port and the micro-operation G (40_compression_core.md rules R92,
R83). -/

namespace Sys2Proof.Machine

/-- COMPRESS (R92): h_out and c_out from the operands alone; the engine's registers are neither read nor written
(R94). Data that is not a positive whole number of blocks is outside the contract and refused (R57, R154). -/
def execCompress (fin : Bool) (hIn : Vector Word 8) (cIn : Vector Word 2) (data : List Byte) (s : State) :
    Host.Outcome State Fault Refusal :=
  if data.length % 64 = 0 ∧ 64 ≤ data.length then
    let x := compress (finalizeFlag fin) { h := hIn, c := cIn } data
    .next { s with outbox := s.outbox ++ [.core x.h x.c] }
  else .refused .coreContract

/-- G (R83): v[a], v[b], v[c], v[d] of the compression in progress are mixed with x and y; nothing else is touched.
Between compressions v and m hold no value (R16, R17; 92_eei_decisions.md D30) and G is never presented (R59). -/
def execG (round : Fin 10) (slot : Fin 8) (s : State) : Host.Outcome State Fault Refusal :=
  match s.inside with
  | some run => .next { s with inside := some { run with v := gStep run.m round slot run.v } }
  | none => .refused .coreIdle

end Sys2Proof.Machine
end

