-- ==== Sys2Proof/Machine/Reserved.lean ====
section
/-! DEFINITION. The reserved opcodes 0 and 9 .. 15: an illegal command does nothing but respond with IllegalCommand,
whatever its other fields; its payload is consumed and ignored (30_encoding.md rule R54, 60_exceptions.md rule R141). -/

namespace Sys2Proof.Machine

/-- The meaning of an illegal command (R54, R141). -/
def illegalCommand (s : State) : Host.Outcome State Fault Refusal := raise .illegalCommand s

/-- Opcode 0 (R54). -/
def execReserved0 (_rsv : BitVec 4) (_outsize : Byte) (_payload : List Byte) (s : State) :
    Host.Outcome State Fault Refusal :=
  illegalCommand s

/-- Opcode 9 (R54). -/
def execReserved9 (_rsv : BitVec 4) (_outsize : Byte) (_payload : List Byte) (s : State) :
    Host.Outcome State Fault Refusal :=
  illegalCommand s

/-- Opcode 10 (R54). -/
def execReservedA (_rsv : BitVec 4) (_outsize : Byte) (_payload : List Byte) (s : State) :
    Host.Outcome State Fault Refusal :=
  illegalCommand s

/-- Opcode 11 (R54). -/
def execReservedB (_rsv : BitVec 4) (_outsize : Byte) (_payload : List Byte) (s : State) :
    Host.Outcome State Fault Refusal :=
  illegalCommand s

/-- Opcode 12 (R54). -/
def execReservedC (_rsv : BitVec 4) (_outsize : Byte) (_payload : List Byte) (s : State) :
    Host.Outcome State Fault Refusal :=
  illegalCommand s

/-- Opcode 13 (R54). -/
def execReservedD (_rsv : BitVec 4) (_outsize : Byte) (_payload : List Byte) (s : State) :
    Host.Outcome State Fault Refusal :=
  illegalCommand s

/-- Opcode 14 (R54). -/
def execReservedE (_rsv : BitVec 4) (_outsize : Byte) (_payload : List Byte) (s : State) :
    Host.Outcome State Fault Refusal :=
  illegalCommand s

/-- Opcode 15 (R54). -/
def execReservedF (_rsv : BitVec 4) (_outsize : Byte) (_payload : List Byte) (s : State) :
    Host.Outcome State Fault Refusal :=
  illegalCommand s

end Sys2Proof.Machine
end

