-- ==== Sys2Proof/Machine/Snapshot.lean ====
section
/-! DEFINITION. MARSHAL and UNMARSHAL (42_state_serialization.md rules R120, R121) and the 109-byte record
(30_encoding.md rule R61). -/

namespace Sys2Proof.Machine

/-- The record: MAGIC, h and c big-endian, size, all 64 bytes of the buffer, offset (R61, R120). -/
def State.record (s : State) : List Byte :=
  magic ++ s.h.toList.flatMap be32 ++ s.c.toList.flatMap be32 ++ [BitVec.ofNat 8 s.size.val] ++ s.block.toList ++
    [BitVec.ofNat 8 s.offset.val]

/-- MARSHAL (R120): never of a keyed digest (60_exceptions.md rule R138). -/
def execMarshal (s : State) : Host.Outcome State Fault Refusal :=
  whenConstructed s fun s =>
    if s.keyed then raise .cannotMarshalKeyedState s else succeed s.record s

/-- Every register loaded from a record whose size byte is z and offset byte is o; unkeyed (R121, R123). -/
def State.restored (P : List Byte) (z : Fin 33) (o : Fin 65) (s : State) : State :=
  { s with
    h := Vector.ofFn fun i : Fin 8 => bewordAt P (3 + 4 * i.val)
    c := #v[bewordAt P 35, bewordAt P 39]
    size := z
    block := padded 64 (P.drop 44)
    offset := o
    keylen := 0
    key := Vector.replicate 32 0
    constructed := true }

/-- UNMARSHAL (R121): the tag, then the length, then the size and offset bytes are checked, before the first write. -/
def execUnmarshal (P : List Byte) (s : State) : Host.Outcome State Fault Refusal :=
  if P.length < 3 ∨ P.take 3 ≠ magic then raise .invalidStateIdentifier s
  else if P.length ≠ 109 then raise .invalidStateSize s
  else if h : (1 ≤ (P.getD 43 0).toNat ∧ (P.getD 43 0).toNat ≤ 32) ∧ (P.getD 108 0).toNat ≤ 64 then
    succeed []
      (s.restored P ⟨(P.getD 43 0).toNat, Nat.lt_succ_of_le h.1.2⟩ ⟨(P.getD 108 0).toNat, Nat.lt_succ_of_le h.2⟩)
  else raise .invalidStateField s

end Sys2Proof.Machine
end

