-- ==== Sys2Proof/Machine/Stream.lean ====
section
/-! DEFINITION. WRITE, SUM, RESET (41_streaming_digest.md rules R104, R106, R108). -/

namespace Sys2Proof.Machine

/-- nn of R104: how many of L fresh bytes are compressed straight from the payload; the last full block is held
back, and nothing is compressed unless more than 64 bytes are left. -/
def directBytes (L : Nat) : Nat :=
  if 64 < L then
    let nn := 64 * (L / 64)
    if nn = L then nn - 64 else nn
  else 0

/-- The tail: at most 64 bytes go to the start of the empty buffer (R104, phase 3). -/
def State.keepTail (P : List Byte) (s : State) : State :=
  { s with block := bufferWrite s.block 0 P, offset := Fin.ofNat 65 P.length }

/-- WRITE of fresh bytes into an empty buffer: phases 2 and 3 of R104. -/
def State.writeFresh (P : List Byte) (s : State) : State :=
  let nn := directBytes P.length
  State.keepTail (P.drop nn) (s.absorb (P.take nn))

/-- Everything fits the buffer, which may become exactly full: no compression (R104, phase 1, n <= rem). -/
def State.writeFits (P : List Byte) (s : State) : State :=
  { s with block := bufferWrite s.block s.offset.val P, offset := Fin.ofNat 65 (s.offset.val + P.length) }

/-- The buffer is topped up and compressed as one interior block, and is then empty (R104, phase 1, n > rem). -/
def State.topUp (P : List Byte) (s : State) : State :=
  let filled := bufferWrite s.block s.offset.val (P.take (64 - s.offset.val))
  { State.absorb filled.toList { s with block := filled } with offset := 0 }

/-- The state after WRITE's payload has been consumed (R104). -/
def State.written (P : List Byte) (s : State) : State :=
  if 0 < s.offset.val then
    if P.length ≤ 64 - s.offset.val then s.writeFits P
    else State.writeFresh (P.drop (64 - s.offset.val)) (s.topUp P)
  else s.writeFresh P

/-- WRITE (R104). -/
def execWrite (bytes : List Byte) (s : State) : Host.Outcome State Fault Refusal :=
  whenConstructed s fun s => succeed [] (s.written bytes)

/-- SUM (R106): the copies are made, finalised, read out and dead; nothing else changes (R107). -/
def execSum (s : State) : Host.Outcome State Fault Refusal :=
  whenConstructed s fun s =>
    let done := s.openShadow.finaliseShadow
    succeed done.shadowDigest done.closeShadow

/-- RESET (R108). -/
def execReset (s : State) : Host.Outcome State Fault Refusal :=
  whenConstructed s fun s => succeed [] s.seed

end Sys2Proof.Machine
end

