-- ==== Sys2Proof/Machine/Dispatch.lean ====
section
/-! DEFINITION. One arm per instruction. -/

namespace Sys2Proof.Machine

def exec (i : Instr) (s : State) : Host.Outcome State Fault Refusal :=
  match i with
  | .init outsize key => Sys2Proof.Machine.execInit outsize key s
  | .init128 key => Sys2Proof.Machine.execInit128 key s
  | .init256 key => Sys2Proof.Machine.execInit256 key s
  | .write bytes => Sys2Proof.Machine.execWrite bytes s
  | .sum => Sys2Proof.Machine.execSum s
  | .reset => Sys2Proof.Machine.execReset s
  | .marshal => Sys2Proof.Machine.execMarshal s
  | .unmarshal record => Sys2Proof.Machine.execUnmarshal record s
  | .compress fin hIn cIn data => Sys2Proof.Machine.execCompress fin hIn cIn data s
  | .g round slot => Sys2Proof.Machine.execG round slot s
  | .reserved0 rsv outsize payload => Sys2Proof.Machine.execReserved0 rsv outsize payload s
  | .reserved9 rsv outsize payload => Sys2Proof.Machine.execReserved9 rsv outsize payload s
  | .reservedA rsv outsize payload => Sys2Proof.Machine.execReservedA rsv outsize payload s
  | .reservedB rsv outsize payload => Sys2Proof.Machine.execReservedB rsv outsize payload s
  | .reservedC rsv outsize payload => Sys2Proof.Machine.execReservedC rsv outsize payload s
  | .reservedD rsv outsize payload => Sys2Proof.Machine.execReservedD rsv outsize payload s
  | .reservedE rsv outsize payload => Sys2Proof.Machine.execReservedE rsv outsize payload s
  | .reservedF rsv outsize payload => Sys2Proof.Machine.execReservedF rsv outsize payload s

end Sys2Proof.Machine
end

