-- ==== Sys2Proof/Machine/Fetch.lean ====
section
/-! DEFINITION. What the engine takes next and how it runs it: a request at a port, or the micro-operation the
sequencer is at. There is no program counter and no fetch from a memory (10_state.md rule R19, 20_memory.md rule R43). -/

namespace Sys2Proof.Machine

/-- One request, run to completion (00_scope.md rule R9). An illegal command is answered with IllegalCommand (R54, R63,
R141); words that are no request are refused (R50, R57). -/
def runRequest (q : Request) (s : State) : Host.Outcome State Fault Refusal :=
  match decodeRequest q with
  | .ok i => exec i s
  | .error (.illegal _) => raise .illegalCommand s
  | .error why => .refused (.rejected why)

/-- One micro-operation of the compression in progress, then the sequencer's advance (R19, R59). -/
def runMicro (U : BitVec 7) (s : State) : Host.Outcome State Fault Refusal :=
  match decodeMicro U with
  | .ok i =>
    match exec i s with
    | .next t => .next t.advanceSequencer
    | .fault r => .fault r
    | .refused r => .refused r
  | .error why => .refused (.rejected why)

/-- The inputs less any power-on reset at their head. -/
def afterPowerOn : List Input → List Input
  | .powerOn :: rest => afterPowerOn rest
  | q => q

end Sys2Proof.Machine
end

