-- ==== Sys2Proof/Machine/Step.lean ====
section
/-! DEFINITION. One step of the engine, and where a step takes its next instruction from. -/

namespace Sys2Proof.Machine

/-- One step: the complete execution of the next request (00_scope.md rule R9, 20_memory.md rule R41). A power-on reset
that is the host's next input is taken at once, also inside a compression (R150). A compression in progress takes its
next micro-operation, and the host's further requests wait for its response (R153). With no input the engine waits
(R150). A core request (R57) waits in the same inbox as the commands and is answered in the same outbox (DESIGN CHOICE,
notes/assumptions/18.md). -/
def step (s : State) : Host.Outcome State Fault Refusal :=
  match s.inbox, s.inside with
  | .powerOn :: rest, _ => .next (State.powerOn { s with inbox := rest })
  | _, some run => runMicro run.u s
  | .request q :: rest, none => runRequest q { s with inbox := rest }
  | [], none => .next s

/-- The table row's word placed where `step` takes its next instruction: a request at the head of the inbox, no
compression being in progress; a micro-operation at the sequencer of the compression in progress, or of a blank one. -/
def State.withFetchWord (s : State) (nbits w : Nat) : State :=
  match tableWords nbits w with
  | .port q => { s with inside := none, inbox := .request q :: s.inbox }
  | .micro U =>
    { s with inside := some { s.inside.getD CoreRun.blank with u := U }, inbox := afterPowerOn s.inbox }

end Sys2Proof.Machine
end

