-- ==== Sys2Proof/Machine/Assembler.lean ====
section
/-! DEFINITION. The assembler syntax and the pseudo-instructions (30_encoding.md rules R65, R66): the requests that a
line of text stands for, and the text of a response. Notation of the spec; the engine sees the requests only. -/

namespace Sys2Proof.Machine

/-! ### Pseudo-instructions (R66) -/

/-- `WRITE <S>`: one WRITE while S fits a payload, else WRITEs of LEN_MAX bytes, the last one shorter (R66).
When the length of S is a whole multiple of LEN_MAX the last WRITE is a full one too, and no shorter or empty one follows
(DESIGN CHOICE, notes/assumptions/16.md). The fuel is a bound on their number. -/
def splitWrites : Nat → List Byte → List Instr
  | 0, _ => []
  | fuel + 1, S =>
    if S.length ≤ Config.lenMax then [.write S]
    else .write (S.take Config.lenMax) :: splitWrites fuel (S.drop Config.lenMax)

/-- `WRITE <S>` for S of any length. -/
def pseudoWrite (S : List Byte) : List Instr := splitWrites (S.length / Config.lenMax + 1) S

/-- `FEED <S1>, <S2>, ...`. -/
def pseudoFeed (chunks : List (List Byte)) : List Instr := chunks.flatMap pseudoWrite

/-- `DIGEST <size>, <S>`. -/
def pseudoDigest (size : Byte) (S : List Byte) : List Instr := .init size [] :: (pseudoWrite S ++ [.sum])

/-- `MAC <size>, <K>, <S>`. -/
def pseudoMac (size : Byte) (K S : List Byte) : List Instr := .init size K :: (pseudoWrite S ++ [.sum])

/-! ### Text (R65). What the spec leaves open of it (blanks, letter case, a quoted `;` or `,`, empty operands) is this model's
choice (DESIGN CHOICE, notes/assumptions/16.md). -/

def isBlank (ch : Char) : Bool := ch = ' ' || ch = '\t'

def trimStart : List Char → List Char
  | ch :: rest => if isBlank ch then trimStart rest else ch :: rest
  | [] => []

def trim (t : List Char) : List Char := (trimStart (trimStart t).reverse).reverse

/-- The line up to its comment; `;` inside quotes starts none. -/
def stripComment (quoted : Bool) : List Char → List Char
  | [] => []
  | ch :: rest =>
    if ch = '"' then ch :: stripComment (!quoted) rest
    else if ch = ';' && !quoted then []
    else ch :: stripComment quoted rest

/-- The comma-separated operands; `,` inside quotes separates none. -/
def splitOperands (quoted : Bool) (done : List Char) : List Char → List (List Char)
  | [] => [trim done.reverse]
  | ch :: rest =>
    if ch = '"' then splitOperands (!quoted) (ch :: done) rest
    else if ch = ',' && !quoted then trim done.reverse :: splitOperands quoted [] rest
    else splitOperands quoted (ch :: done) rest

def operandsOf (t : List Char) : List (List Char) :=
  if trim t = [] then [] else splitOperands false [] t

def decimalDigit (ch : Char) : Option Nat :=
  if 48 ≤ ch.toNat ∧ ch.toNat ≤ 57 then some (ch.toNat - 48) else none

def hexDigit (ch : Char) : Option Nat :=
  if 65 ≤ ch.toNat ∧ ch.toNat ≤ 70 then some (ch.toNat - 55)
  else if 97 ≤ ch.toNat ∧ ch.toNat ≤ 102 then some (ch.toNat - 87)
  else decimalDigit ch

/-- `<hex>`: an even number of digits, two per byte, first byte first. -/
def hexBytes : List Char → Option (List Byte)
  | [] => some []
  | a :: b :: rest => do
    let hi ← hexDigit a
    let lo ← hexDigit b
    let tail ← hexBytes rest
    return BitVec.ofNat 8 (16 * hi + lo) :: tail
  | _ => none

def decimalOf (n : Nat) : List Char → Option Nat
  | [] => some n
  | ch :: rest =>
    match decimalDigit ch with
    | some k => decimalOf (10 * n + k) rest
    | none => none

/-- `<size>`, decimal; the OUTSIZE field carries 0 .. 255. -/
def sizeOperand (t : List Char) : Option Byte :=
  if t = [] then none
  else match decimalOf 0 t with
    | some n => if n < 256 then some (BitVec.ofNat 8 n) else none
    | none => none

/-- The characters up to the closing quote, which ends the operand. -/
def asciiBytes : List Char → Option (List Byte)
  | ['"'] => some []
  | ch :: rest =>
    if ch ≠ '"' ∧ ch.toNat < 128 then (asciiBytes rest).map (BitVec.ofNat 8 ch.toNat :: ·) else none
  | [] => none

/-- `<hex> | "<ascii>"`. -/
def bytesOperand : List Char → Option (List Byte)
  | '"' :: rest => asciiBytes rest
  | t => hexBytes t

/-- `key=<hex>`. -/
def keyOperand : List Char → Option (List Byte)
  | 'k' :: 'e' :: 'y' :: '=' :: t => hexBytes t
  | _ => none

/-- `<32-bit hex>`. -/
def wordOperand (t : List Char) : Option Word :=
  match hexBytes t with
  | some [b0, b1, b2, b3] => some (beword b0 b1 b2 b3)
  | _ => none

/-- The request of an instruction that has one. -/
def requestOf (i : Instr) : Option Request :=
  match encode i with
  | .port q => if i.wellFormed then some q else none
  | .micro _ => none

def requestsOf (is : List Instr) : Option (List Request) := is.mapM requestOf

/-- A raw header word with a raw payload, which must be LEN bytes for the port to deliver it (R50). -/
def rawRequest (W : Word) (P : List Byte) : Option (List Request) :=
  if P.length = (lenField W).toNat then some [.command W P] else none

/-- The instructions of a mnemonic and its operands, pseudo-instructions included; `none` if they are not of the
syntax. That the <K> of MAC may be a quoted ASCII string, where its expansion has `key=<hex>`, and that FEED with no operand
stands for no command, are this model's choice (DESIGN CHOICE, notes/assumptions/16.md). -/
def assembleInstr (mnemonic : List Char) (operands : List (List Char)) : Option (List Instr) :=
  if mnemonic = "INIT".toList then
    match operands with
    | [z] => do return [.init (← sizeOperand z) []]
    | [z, k] => do return [.init (← sizeOperand z) (← keyOperand k)]
    | _ => none
  else if mnemonic = "INIT128".toList then
    match operands with
    | [k] => do return [.init128 (← keyOperand k)]
    | _ => none
  else if mnemonic = "INIT256".toList then
    match operands with
    | [] => some [.init256 []]
    | [k] => do return [.init256 (← keyOperand k)]
    | _ => none
  else if mnemonic = "WRITE".toList then
    match operands with
    | [] => some [.write []]
    | [t] => do return pseudoWrite (← bytesOperand t)
    | _ => none
  else if mnemonic = "SUM".toList then if operands = [] then some [.sum] else none
  else if mnemonic = "RESET".toList then if operands = [] then some [.reset] else none
  else if mnemonic = "MARSHAL".toList then if operands = [] then some [.marshal] else none
  else if mnemonic = "UNMARSHAL".toList then
    match operands with
    | [] => some [.unmarshal []]
    | [t] => do return [.unmarshal (← hexBytes t)]
    | _ => none
  else if mnemonic = "DIGEST".toList then
    match operands with
    | [z, t] => do return pseudoDigest (← sizeOperand z) (← bytesOperand t)
    | _ => none
  else if mnemonic = "MAC".toList then
    match operands with
    | [z, k, t] => do return pseudoMac (← sizeOperand z) (← bytesOperand k) (← bytesOperand t)
    | _ => none
  else if mnemonic = "FEED".toList then do return pseudoFeed (← operands.mapM bytesOperand)
  else none

/-- The requests of one line; a line of blanks and comment stands for none, `none` is a line that is not of the
syntax. -/
def assembleLine (line : List Char) : Option (List Request) :=
  let text := trim (stripComment false line)
  let mnemonic := text.takeWhile fun ch => !isBlank ch
  let operands := operandsOf (text.drop mnemonic.length)
  if text = [] then some []
  else if mnemonic = ".word".toList then
    match operands with
    | [w] => do rawRequest (← wordOperand w) []
    | [w, p] => do rawRequest (← wordOperand w) (← hexBytes p)
    | _ => none
  else do requestsOf (← assembleInstr mnemonic operands)

/-! ### The text of a response (R65) -/

def Status.name : Status → String
  | .ok => "OK"
  | .invalidKeySize => "InvalidKeySize"
  | .keyRequired => "KeyRequired"
  | .cannotMarshalKeyedState => "CannotMarshalKeyedState"
  | .invalidStateIdentifier => "InvalidStateIdentifier"
  | .invalidStateSize => "InvalidStateSize"
  | .illegalCommand => "IllegalCommand"
  | .notConstructed => "NotConstructed"
  | .invalidStateField => "InvalidStateField"

def hexChar (n : Nat) : Char := Char.ofNat (if n < 10 then 48 + n else 87 + n)

def hexText (p : List Byte) : List Char := p.flatMap fun b => [hexChar (b.toNat / 16), hexChar (b.toNat % 16)]

/-- `-> <STATUS name>[, <hex>]`. -/
def responseText (S : Status) (Q : List Byte) : List Char :=
  "-> ".toList ++ S.name.toList ++ if Q = [] then [] else ", ".toList ++ hexText Q

end Sys2Proof.Machine
end

