-- ==== Sys2Proof/Safety.lean ====
section
/-! DEFINITION. What counts as a safe run of the engine, and the predicates the statements are written in. -/

namespace Sys2Proof.Machine

/-- The outcome is a next state, and P holds of it. -/
def Answers (o : Host.Outcome State Fault Refusal) (P : State → Prop) : Prop := ∃ t, o = .next t ∧ P t

/-- The invariants of 10_state.md rule R21 that every state of the machine has, with the lifetimes of R16 to R19: a
constructed engine has a legal size and a zero-padded key register; the SUM copies exist only inside a SUM; a
compression in progress is at a micro-operation 0 .. 79 and has whole blocks left. (offset <= 64 and keylen <= 32 are
the types of those fields.) -/
def State.Inv (s : State) : Prop :=
  (s.constructed = true → 1 ≤ s.size.val ∧ ∀ i : Fin 32, s.keylen.val ≤ i.val → s.key[i] = 0) ∧
  s.shadow = none ∧
  ∀ run, s.inside = some run → run.u.toNat < 80 ∧ run.rest.length % 64 = 0

/-- The invariants of R21 for a digest that was not loaded by UNMARSHAL: the counter is a multiple of 64, and offset is
0 only if no byte has been fed (so the counter is 0 and the digest unkeyed). -/
def State.StreamInv (s : State) : Prop :=
  s.constructed = true →
    counterValue s.c % 64 = 0 ∧ (s.offset.val = 0 → counterValue s.c = 0 ∧ s.keylen.val = 0)

/-- The header words of illegal commands, as 30_encoding.md rule R54 lists them, on the word's number: OP is W mod 16,
RSV the next 4 bits, OUTSIZE the next 8, LEN the upper 16. -/
def IllegalHeader (W : Word) : Prop :=
  (W.toNat % 16 = 0 ∨ 9 ≤ W.toNat % 16) ∨
  W.toNat / 16 % 16 ≠ 0 ∨
  (W.toNat % 16 ≠ 1 ∧ W.toNat / 256 % 256 ≠ 0) ∨
  (W.toNat % 16 = 1 ∧ ¬(1 ≤ W.toNat / 256 % 256 ∧ W.toNat / 256 % 256 ≤ 32)) ∨
  ((W.toNat % 16 = 5 ∨ W.toNat % 16 = 6 ∨ W.toNat % 16 = 7) ∧ W.toNat / 65536 ≠ 0)

/-- The post-construction state for output size z and key k (10_state.md rule R24). -/
def State.PostConstruction (z : Nat) (k : List Byte) (t : State) : Prop :=
  t.h[0] = 0x6A09E667#32 ^^^ (BitVec.ofNat 32 z ||| (BitVec.ofNat 32 k.length <<< 8) ||| 0x01010000#32) ∧
  (∀ i : Fin 8, i ≠ 0 → t.h[i] = iv[i]) ∧
  t.c = #v[0, 0] ∧
  (∀ i : Fin 64, t.block[i] = k.getD i.val 0) ∧
  t.offset.val = (if k = [] then 0 else 64) ∧
  t.size.val = z ∧ t.keylen.val = k.length ∧
  (∀ i : Fin 32, t.key[i] = k.getD i.val 0) ∧
  t.constructed = true

/-- Two states whose later behaviour must agree: the same ports and the same construct bit, and, once constructed, the
same registers. Before construction the registers may hold anything (R23). -/
def SameOutside (s₁ s₂ : State) : Prop :=
  s₁.inbox = s₂.inbox ∧ s₁.outbox = s₂.outbox ∧ s₁.inside = s₂.inside ∧ s₁.shadow = s₂.shadow ∧
  s₁.constructed = s₂.constructed ∧ (s₁.constructed = true → s₁ = s₂)

/-- Two outcomes that agree: next states related by P, the same refusal, or the same fault. -/
def OutcomesAgree (P : State → State → Prop) (o₁ o₂ : Host.Outcome State Fault Refusal) : Prop :=
  match o₁, o₂ with
  | .next t₁, .next t₂ => P t₁ t₂
  | .refused r₁, .refused r₂ => r₁ = r₂
  | .fault r₁, .fault r₂ => r₁ = r₂
  | _, _ => False

/-- WRITE of each chunk in turn; `none` if one of them does not answer. -/
def writeAll : List (List Byte) → State → Option State
  | [], s => some s
  | A :: rest, s =>
    match exec (.write A) s with
    | .next t => writeAll rest t
    | _ => none

/-- The instructions that write the configuration: INIT, INIT128, INIT256 and UNMARSHAL (R13, R14). -/
def configures : Instr → Bool
  | .init _ _ | .init128 _ | .init256 _ | .unmarshal _ => true
  | .write _ | .sum | .reset | .marshal | .compress _ _ _ _ | .g _ _ => false
  | .reserved0 _ _ _ | .reserved9 _ _ _ | .reservedA _ _ _ | .reservedB _ _ _ => false
  | .reservedC _ _ _ | .reservedD _ _ _ | .reservedE _ _ _ | .reservedF _ _ _ => false

/-- The eight assignments of G, in order, each on the working vector the one before it left
(40_compression_core.md rule R83). -/
def gLines (a b c d : Fin 16) (x y : Word) (v : Vector Word 16) : Vector Word 16 :=
  let v := v.set a (v[a] + v[b] + x)
  let v := v.set d (rotr32 (v[d] ^^^ v[a]) 16)
  let v := v.set c (v[c] + v[d])
  let v := v.set b (rotr32 (v[b] ^^^ v[c]) 12)
  let v := v.set a (v[a] + v[b] + y)
  let v := v.set d (rotr32 (v[d] ^^^ v[a]) 8)
  let v := v.set c (v[c] + v[d])
  v.set b (rotr32 (v[b] ^^^ v[c]) 7)

/-- The 80 micro-operations of a block in sequencer order: the slot fastest, then the round (R19, R85). -/
def microOrder : List (Fin 10 × Fin 8) :=
  (List.finRange 10).flatMap fun r => (List.finRange 8).map fun s => (r, s)

/-- The working vector after the 80 G of a block, each by its eight assignments with the operands of the slot table
(R83, R84, R85). -/
def mixed (m v : Vector Word 16) : Vector Word 16 :=
  microOrder.foldl
    (fun v rs =>
      let q := slotIndices[rs.2]
      gLines q.1 q.2.1 q.2.2.1 q.2.2.2 m[xIndex rs.1 rs.2] m[yIndex rs.1 rs.2] v) v

/-! ### The hash of a message, written without the engine -/

/-- One block of the hash: h, the first 64 bytes of blk (zeros past its end), t bytes counted so far, and whether it is
the last block (40_compression_core.md rules R83 to R90). -/
def hashBlock (h : Vector Word 8) (blk : List Byte) (t : Nat) (last : Bool) : Vector Word 8 :=
  let m : Vector Word 16 := Vector.ofFn fun i : Fin 16 =>
    blk.getD (4 * i.val + 3) 0 ++ blk.getD (4 * i.val + 2) 0 ++ blk.getD (4 * i.val + 1) 0 ++ blk.getD (4 * i.val) 0
  let v := mixed m #v[h[0], h[1], h[2], h[3], h[4], h[5], h[6], h[7], iv[0], iv[1], iv[2], iv[3],
    iv[4] ^^^ BitVec.ofNat 32 t, iv[5] ^^^ BitVec.ofNat 32 (t / 2 ^ 32), if last then ~~~iv[6] else iv[6], iv[7]]
  Vector.ofFn fun i : Fin 8 => h[i] ^^^ v[i.val] ^^^ v[i.val + 8]

/-- n interior blocks of T, then its last, possibly short, block; t bytes were counted before. -/
def hashBlocks : Nat → Vector Word 8 → Nat → List Byte → Vector Word 8
  | 0, h, t, T => hashBlock h T (t + T.length) true
  | n + 1, h, t, T => hashBlocks n (hashBlock h T (t + 64) false) (t + 64) (T.drop 64)

/-- The z-byte hash of the message S with the key k: the key block, if there is a key, then S, in one pass. -/
def hashOf (z : Nat) (k S : List Byte) : List Byte :=
  let T := (if k = [] then [] else k ++ zeros (64 - k.length)) ++ S
  let h₀ := iv.set 0 (iv[0] ^^^ (BitVec.ofNat 32 z ||| (BitVec.ofNat 32 k.length <<< 8) ||| 0x01010000#32))
  ((hashBlocks ((T.length + 63) / 64 - 1) h₀ 0 T).toList.flatMap le32).take z

/-- The response s' gave beyond those of s is exactly r. -/
def Responds (s s' : State) (r : Response) : Prop := s'.outbox = s.outbox ++ [r]

end Sys2Proof.Machine
end

