-- ==== Sys2Proof/Certificates/Slice0/Obligations.lean ====
section
/-! DEFINITION. The statements for the provers. -/

open Sys2Proof Sys2Proof.Machine

/-! ### Encodings -/

/-- R50 to R59: every bit of every field survives encoding and decoding. -/
def Obligations.DecodeEncodeAgree : Prop :=
  ∀ i : Instr, i.wellFormed = true → decode (encode i) = .ok i

/-- R50 to R59: words that decode are the words of the instruction they decode to, and of no other. -/
def Obligations.EncodeDecodeAgree : Prop :=
  ∀ (w : Words) (i : Instr), decode w = .ok i → i.wellFormed = true ∧ encode i = w

/-- R50, R64: the byte-serial form of a command is read back with what follows it left over, and no shorter prefix of it
is a command. (That a reader waits for missing bytes is the model's reading, notes/assumptions/16.md.) -/
def Obligations.SerialCommandsAreReadBack : Prop :=
  ∀ (W : Word) (P rest : List Byte), P.length = W.toNat / 65536 →
    deserialise (serialise W P ++ rest) = some (.command W P, rest) ∧
    ∀ k, k < 4 + P.length → deserialise ((serialise W P).take k) = none

/-- 95_test_vectors.md section 2.9, R51, R57, R59: some words written out from the encodings. -/
def Obligations.SpecWordsDecode : Prop :=
  decode (.port (.command 0x00002001#32 [])) = .ok (.init 32 []) ∧
  decode (.port (.command 0x00010002#32 [0xAA])) = .ok (.init128 [0xAA]) ∧
  decode (.port (.command 0x00000003#32 [])) = .ok (.init256 []) ∧
  decode (.port (.command 0x00030004#32 [0x61, 0x62, 0x63])) = .ok (.write [0x61, 0x62, 0x63]) ∧
  decode (.port (.command 0x00000005#32 [])) = .ok .sum ∧
  decode (.port (.command 0x00000006#32 [])) = .ok .reset ∧
  decode (.port (.command 0x00000007#32 [])) = .ok .marshal ∧
  decode (.port (.command 0x006D0008#32 (zeros 109))) = .ok (.unmarshal (zeros 109)) ∧
  decode (.port (.core 0x00010001#32 iv #v[0, 0] (zeros 64))) = .ok (.compress true iv #v[0, 0] (zeros 64)) ∧
  decode (.micro 0b0010101#7) = .ok (.g 2 5) ∧
  decode (.port (.command 0x00000000#32 [])) = .ok (.reserved0 0 0 []) ∧
  decode (.port (.command 0x0001129F#32 [7])) = .ok (.reservedF 9 0x12 [7])

/-- R66: a WRITE of any length is split into WRITEs of 65535 bytes, the last one shorter or as long; their payloads are
the message. (That a length which is a whole multiple of 65535 ends with a full WRITE, not with a shorter one, is
the model's choice, notes/assumptions/16.md.) -/
def Obligations.LongWritesAreSplit : Prop :=
  ∀ S : List Byte, ∃ chunks : List (List Byte),
    pseudoWrite S = chunks.map Instr.write ∧ chunks.flatten = S ∧
    (∀ A ∈ chunks.dropLast, A.length = 65535) ∧ (∀ A ∈ chunks, A.length ≤ 65535)

/-! ### The step -/

/-- R9, R41: the next request, when the engine is free, is run to completion; the later ones wait. (The inbox, as the
form of the host's order of issue, is the model's choice, notes/assumptions/2.md.) (So is the one inbox for commands
and core requests, notes/assumptions/18.md.) -/
def Obligations.StepRunsTheDecodedRequest : Prop :=
  ∀ (s : State) (q : Request) (rest : List Input) (i : Instr),
    s.inside = none → s.inbox = .request q :: rest → decode (.port q) = .ok i →
    step s = exec i { s with inbox := rest }

/-- R19, R59, R91: in a compression the step is the G the sequencer is at, then the sequencer's advance by one: the slot
and round, or after the fold of a finished block the next block, or after the last block the core's result. (That a
compression stands in State between its micro-operations is the model's choice, notes/assumptions/4.md.) -/
def Obligations.StepRunsTheSequencersMicroOperation : Prop :=
  ∀ (s : State) (run : CoreRun) (i : Instr),
    s.inside = some run → (∀ rest, s.inbox ≠ .powerOn :: rest) → decode (.micro run.u) = .ok i →
    ∃ v, exec i s = .next { s with inside := some { run with v := v } } ∧
      (run.u.toNat < 79 → step s = .next { s with inside := some { run with v := v, u := run.u + 1 } }) ∧
      (run.u.toNat = 79 → 64 ≤ run.rest.length →
        let h := foldWork run.chain.h v
        let ctr := counterAdvance run.chain.c
        let next : CoreRun :=
          { chain := { h := h, c := ctr }, fin := run.fin, blk := run.blk + 1, rest := run.rest.drop 64,
            v := loadWork h ctr (finalizeFlag run.fin), m := messageWords (padded 64 run.rest), u := 0 }
        step s = .next { s with inside := some next }) ∧
      (run.u.toNat = 79 → run.rest.length < 64 →
        step s = .next { s with
          inside := none, outbox := s.outbox ++ [.core (foldWork run.chain.h v) run.chain.c] })

/-- R150: with no input and nothing in progress the engine waits. A power-on reset forgets the digest, whatever is in
progress, and gives no response. (The other registers' values after it are the model's choice,
notes/assumptions/1.md; nothing is said of them here.) (That a power-on reset is taken at once is the model's
choice, notes/assumptions/12.md.) -/
def Obligations.PowerOnForgetsTheDigest : Prop :=
  (State.reset.constructed = false ∧ State.reset.inside = none ∧ State.reset.shadow = none ∧
    State.reset.outbox = []) ∧
  (∀ s : State, s.inbox = [] → s.inside = none → step s = .next s) ∧
  ∀ (s : State) (rest : List Input), s.inbox = .powerOn :: rest →
    Answers (step s) fun t =>
      t.constructed = false ∧ t.inside = none ∧ t.shadow = none ∧ t.outbox = s.outbox ∧ t.inbox = rest

/-- R50, R57, R59, U2, U11, U12: what the step refuses: a pair whose payload is not LEN bytes; a core request with
nonzero reserved bits, no block, or data that is not 64*NBLK bytes; a micro-operation of round 10 .. 15. -/
def Obligations.WordsOutsideTheFormatsAreRefused : Prop :=
  (∀ (s : State) (W : Word) (P : List Byte) (rest : List Input),
    s.inside = none → s.inbox = .request (.command W P) :: rest → P.length ≠ W.toNat / 65536 →
    step s = .refused (.rejected .payloadLength)) ∧
  (∀ (s : State) (K : Word) (h : Vector Word 8) (ctr : Vector Word 2) (data : List Byte) (rest : List Input),
    s.inside = none → s.inbox = .request (.core K h ctr data) :: rest →
    K.toNat / 2 % 32768 ≠ 0 ∨ K.toNat / 65536 = 0 ∨ data.length ≠ 64 * (K.toNat / 65536) →
    ∃ why, step s = .refused (.rejected why)) ∧
  ∀ (s : State) (run : CoreRun),
    s.inside = some run → (∀ rest, s.inbox ≠ .powerOn :: rest) → 80 ≤ run.u.toNat →
    step s = .refused (.rejected .microRound)

/-- R54, R63, R141: an illegal command does nothing but respond with IllegalCommand; and only an illegal command is
answered so. -/
def Obligations.IllegalCommandsAreTheReservedEncodings : Prop :=
  ∀ (s : State) (W : Word) (P : List Byte) (rest : List Input),
    s.inside = none → s.inbox = .request (.command W P) :: rest → P.length = W.toNat / 65536 →
    (IllegalHeader W →
      step s = .next { s with inbox := rest, outbox := s.outbox ++ [.command 6#32 []] }) ∧
    (¬IllegalHeader W →
      ∃ R Q, Answers (step s) fun t => Responds s t (.command R Q) ∧ R.toNat % 256 ≠ 6)

/-! ### Construction -/

/-- R54, R101: INIT. -/
def Obligations.InitConstructsADigest : Prop :=
  ∀ (s : State) (z : Byte) (k : List Byte),
    (¬(1 ≤ z.toNat ∧ z.toNat ≤ 32) →
      exec (.init z k) s = .next { s with outbox := s.outbox ++ [.command 6#32 []] }) ∧
    (1 ≤ z.toNat → z.toNat ≤ 32 → 32 < k.length →
      exec (.init z k) s = .next { s with outbox := s.outbox ++ [.command 1#32 []] }) ∧
    (1 ≤ z.toNat → z.toNat ≤ 32 → k.length ≤ 32 →
      Answers (exec (.init z k) s) fun t =>
        t.PostConstruction z.toNat k ∧ Responds s t (.command 0#32 []) ∧
        t.inbox = s.inbox ∧ t.inside = s.inside ∧ t.shadow = s.shadow)

/-- R102: INIT128 needs a key, and then leaves the state of INIT 16. -/
def Obligations.Init128RequiresAKey : Prop :=
  ∀ (s : State) (k : List Byte),
    (k = [] → exec (.init128 k) s = .next { s with outbox := s.outbox ++ [.command 2#32 []] }) ∧
    (32 < k.length → exec (.init128 k) s = .next { s with outbox := s.outbox ++ [.command 1#32 []] }) ∧
    (1 ≤ k.length → k.length ≤ 32 →
      exec (.init128 k) s = exec (.init 16 k) s ∧
      Answers (exec (.init128 k) s) fun t =>
        t.PostConstruction 16 k ∧ Responds s t (.command 0#32 []) ∧
        t.inbox = s.inbox ∧ t.inside = s.inside ∧ t.shadow = s.shadow)

/-- R103: INIT256 leaves the state of INIT 32. -/
def Obligations.Init256IsInit32 : Prop :=
  ∀ (s : State) (k : List Byte),
    exec (.init256 k) s = exec (.init 32 k) s ∧
    (32 < k.length → exec (.init256 k) s = .next { s with outbox := s.outbox ++ [.command 1#32 []] }) ∧
    (k.length ≤ 32 →
      Answers (exec (.init256 k) s) fun t =>
        t.PostConstruction 32 k ∧ Responds s t (.command 0#32 []) ∧
        t.inbox = s.inbox ∧ t.inside = s.inside ∧ t.shadow = s.shadow)

/-- R142: WRITE, SUM, RESET and MARSHAL without a digest object. -/
def Obligations.CommandsNeedADigest : Prop :=
  ∀ (s : State) (i : Instr), s.constructed = false →
    ((∃ P, i = .write P) ∨ i = .sum ∨ i = .reset ∨ i = .marshal) →
    exec i s = .next { s with outbox := s.outbox ++ [.command 7#32 []] }

/-! ### WRITE -/

/-- R104: of the buffered bytes followed by the payload, all but the last 1 .. 64 are compressed as interior blocks and
the rest is buffered; a stale byte keeps the value it had, or has from the topped-up buffer if that was compressed;
nothing else changes. (The stale bytes are as in notes/assumptions/8.md.) -/
def Obligations.WriteCompressesAllButTheLastBlock : Prop :=
  ∀ (s : State) (P : List Byte), s.constructed = true →
    let T := s.block.toList.take s.offset.val ++ P
    let N := (T.length + 63) / 64 - 1
    let x := compressBlocks 0#32 N { h := s.h, c := s.c } T
    Answers (exec (.write P) s) fun t =>
      t = { s with
        h := x.h, c := x.c, block := t.block, offset := t.offset, outbox := s.outbox ++ [.command 0#32 []] } ∧
      t.offset.val = T.length - 64 * N ∧
      t.block.toList.take t.offset.val = T.drop (64 * N) ∧
      ∀ i : Fin 64, t.offset.val ≤ i.val →
        t.block[i] = if 0 < s.offset.val ∧ 0 < N then T.getD i.val 0 else s.block[i]

/-- R105 (b), R160: how many blocks a WRITE compresses, read off the counter. -/
def Obligations.WriteBlockCount : Prop :=
  ∀ (s : State) (P : List Byte), s.constructed = true →
    Answers (exec (.write P) s) fun t =>
      counterValue t.c =
        (counterValue s.c + 64 * ((s.offset.val + P.length + 63) / 64 - 1)) % 2 ^ 64

/-- R21: the counter and the buffer together count every byte fed, once. -/
def Obligations.WriteCountsEveryByteOnce : Prop :=
  ∀ (s : State) (P : List Byte), s.constructed = true →
    Answers (exec (.write P) s) fun t =>
      (counterValue t.c + t.offset.val) % 2 ^ 64 = (counterValue s.c + s.offset.val + P.length) % 2 ^ 64

/-- R105 (a): the same bytes in any chunking leave the same h, c, offset and buffered bytes, and the same digest. -/
def Obligations.ChunkingInvariance : Prop :=
  ∀ (s : State) (chunks : List (List Byte)), s.constructed = true →
    ∃ u w, writeAll chunks s = some u ∧ exec (.write chunks.flatten) s = .next w ∧
      u.h = w.h ∧ u.c = w.c ∧ u.offset = w.offset ∧
      u.block.toList.take u.offset.val = w.block.toList.take w.offset.val ∧
      ∃ r, (Answers (exec .sum u) fun t => Responds u t r) ∧ (Answers (exec .sum w) fun t => Responds w t r)

/-! ### SUM -/

/-- R106: SUM answers with the digest of copies and changes no register. -/
def Obligations.SumFinalisesACopy : Prop :=
  ∀ s : State, s.constructed = true →
    let rem := 64 - s.offset.val
    let cs : Vector Word 2 :=
      #v[s.c[0] - BitVec.ofNat 32 rem, if s.c[0].toNat < rem then s.c[1] - 1#32 else s.c[1]]
    let bs : Vector Byte 64 := Vector.ofFn fun k : Fin 64 => if k.val < s.offset.val then s.block[k] else 0#8
    let x := compress1 0xFFFFFFFF#32 { h := s.h, c := cs } bs
    exec .sum s = .next { s with
      shadow := none
      outbox := s.outbox ++
        [.command (BitVec.ofNat 32 (65536 * s.size.val)) ((x.h.toList.flatMap le32).take s.size.val)] }

/-- R106: the final block is mixed with the counter value c + offset modulo 2^64. -/
def Obligations.SumCountsTheBufferedBytes : Prop :=
  ∀ (ctr : Vector Word 2) (o : Nat), o ≤ 64 →
    counterValue (counterAdvance (counterCorrect ctr (64 - o))) = (counterValue ctr + o) % 2 ^ 64

/-- R107 (c): the digest is exactly `size` bytes long, and QLEN says so. -/
def Obligations.DigestLengthIsTheOutputSize : Prop :=
  ∀ s : State, s.constructed = true →
    ∃ R Q, (Answers (exec .sum s) fun t => Responds s t (.command R Q)) ∧
      Q.length = s.size.val ∧ R.toNat = 65536 * s.size.val

/-- R107 (b): a second SUM with nothing between returns the same response. -/
def Obligations.SumTwiceGivesTheSameDigest : Prop :=
  ∀ s : State, s.constructed = true →
    ∃ r t, exec .sum s = .next t ∧ Responds s t r ∧ Answers (exec .sum t) fun u => Responds t u r

/-- R12: no digest depends on a stale byte. -/
def Obligations.SumIgnoresStaleBytes : Prop :=
  ∀ s₁ s₂ : State, s₁.constructed = true → s₂.constructed = true →
    s₁.h = s₂.h → s₁.c = s₂.c → s₁.size = s₂.size → s₁.offset = s₂.offset →
    (∀ i : Fin 64, i.val < s₁.offset.val → s₁.block[i] = s₂.block[i]) →
    ∃ r, (Answers (exec .sum s₁) fun t => Responds s₁ t r) ∧ (Answers (exec .sum s₂) fun t => Responds s₂ t r)

/-- R100 to R107, R66: a digest constructed with output size z and key k, fed a message in any chunks, answers SUM with
the z-byte hash of the message, written in one pass without the engine. -/
def Obligations.DigestIsTheHashOfTheMessage : Prop :=
  ∀ (s : State) (z : Byte) (k : List Byte) (chunks : List (List Byte)),
    1 ≤ z.toNat → z.toNat ≤ 32 → k.length ≤ 32 →
    ∃ t u, exec (.init z k) s = .next t ∧ writeAll chunks t = some u ∧
      Answers (exec .sum u) fun w =>
        Responds u w (.command (BitVec.ofNat 32 (65536 * z.toNat)) (hashOf z.toNat k chunks.flatten))

/-! ### RESET -/

/-- R108: RESET restores h, c, offset and, when keyed, block to the post-construction values for the stored size and
key, and changes nothing else. (The stale bytes are as in notes/assumptions/8.md.) -/
def Obligations.ResetRestoresTheSeed : Prop :=
  ∀ s : State, s.constructed = true →
    Answers (exec .reset s) fun t =>
      t = { s with
        h := t.h, c := #v[0, 0], offset := t.offset, block := t.block
        outbox := s.outbox ++ [.command 0#32 []] } ∧
      t.h[0] = 0x6A09E667#32 ^^^
        (BitVec.ofNat 32 s.size.val ||| (BitVec.ofNat 32 s.keylen.val <<< 8) ||| 0x01010000#32) ∧
      (∀ i : Fin 8, i ≠ 0 → t.h[i] = iv[i]) ∧
      (s.keylen.val = 0 → t.offset.val = 0 ∧ t.block = s.block) ∧
      (0 < s.keylen.val → t.offset.val = 64 ∧
        ∀ i : Fin 64, t.block[i] = if h : i.val < 32 then s.key[i.val] else 0#8)

/-- R108, R110: RESET after any WRITE returns to the post-construction state (an unkeyed one keeps its stale bytes). -/
def Obligations.ResetUndoesWrites : Prop :=
  ∀ (s : State) (z : Byte) (k P : List Byte), 1 ≤ z.toNat → z.toNat ≤ 32 → k.length ≤ 32 →
    ∃ t u w, exec (.init z k) s = .next t ∧ exec (.write P) t = .next u ∧ exec .reset u = .next w ∧
      w.h = t.h ∧ w.c = t.c ∧ w.offset = t.offset ∧ w.size = t.size ∧ w.keylen = t.keylen ∧ w.key = t.key ∧
      w.constructed = t.constructed ∧ (k ≠ [] → w.block = t.block)

/-! ### MARSHAL and UNMARSHAL -/

/-- R61, R120: MARSHAL of an unkeyed digest answers the 109-byte record, byte by byte, and changes nothing; of a keyed
one it fails. (The stale bytes are as in notes/assumptions/8.md.) -/
def Obligations.MarshalGivesTheRecord : Prop :=
  ∀ s : State, s.constructed = true →
    (0 < s.keylen.val → exec .marshal s = .next { s with outbox := s.outbox ++ [.command 3#32 []] }) ∧
    (s.keylen.val = 0 →
      ∃ Q, exec .marshal s = .next { s with outbox := s.outbox ++ [.command 0x006D0000#32 Q] } ∧
        Q.length = 109 ∧
        Q.take 3 = [0x62#8, 0x32#8, 0x73#8] ∧
        (∀ (i : Fin 8) (j : Fin 4), Q.getD (3 + 4 * i.val + j.val) 0 = s.h[i].extractLsb' (8 * (3 - j.val)) 8) ∧
        (∀ (i : Fin 2) (j : Fin 4), Q.getD (35 + 4 * i.val + j.val) 0 = s.c[i].extractLsb' (8 * (3 - j.val)) 8) ∧
        (Q.getD 43 0).toNat = s.size.val ∧
        (∀ i : Fin 64, Q.getD (44 + i.val) 0 = s.block[i]) ∧
        (Q.getD 108 0).toNat = s.offset.val)

/-- R121: UNMARSHAL's checks in order, and the registers a good record loads. -/
def Obligations.UnmarshalLoadsTheRecord : Prop :=
  ∀ (s : State) (P : List Byte),
    (P.take 3 ≠ magic →
      exec (.unmarshal P) s = .next { s with outbox := s.outbox ++ [.command 4#32 []] }) ∧
    (P.take 3 = magic → P.length ≠ 109 →
      exec (.unmarshal P) s = .next { s with outbox := s.outbox ++ [.command 5#32 []] }) ∧
    (P.take 3 = magic → P.length = 109 →
      ((P.getD 43 0).toNat = 0 ∨ 32 < (P.getD 43 0).toNat ∨ 64 < (P.getD 108 0).toNat) →
      exec (.unmarshal P) s = .next { s with outbox := s.outbox ++ [.command 8#32 []] }) ∧
    (P.take 3 = magic → P.length = 109 →
      1 ≤ (P.getD 43 0).toNat → (P.getD 43 0).toNat ≤ 32 → (P.getD 108 0).toNat ≤ 64 →
      Answers (exec (.unmarshal P) s) fun t =>
        Responds s t (.command 0#32 []) ∧
        (∀ i : Fin 8, t.h[i] =
          P.getD (3 + 4 * i.val) 0 ++ P.getD (4 + 4 * i.val) 0 ++ P.getD (5 + 4 * i.val) 0 ++
            P.getD (6 + 4 * i.val) 0) ∧
        t.c[0] = P.getD 35 0 ++ P.getD 36 0 ++ P.getD 37 0 ++ P.getD 38 0 ∧
        t.c[1] = P.getD 39 0 ++ P.getD 40 0 ++ P.getD 41 0 ++ P.getD 42 0 ∧
        t.size.val = (P.getD 43 0).toNat ∧
        (∀ i : Fin 64, t.block[i] = P.getD (44 + i.val) 0) ∧
        t.offset.val = (P.getD 108 0).toNat ∧
        t.keylen.val = 0 ∧ t.key = Vector.replicate 32 0 ∧ t.constructed = true ∧
        t.inbox = s.inbox ∧ t.inside = s.inside ∧ t.shadow = s.shadow)

/-- R122: the record of an unkeyed digest, loaded into any engine, gives back every register. The premise is the
invariant StepKeepsTheInvariant states. (The stale bytes are state, as in notes/assumptions/8.md.) -/
def Obligations.SnapshotRoundTrip : Prop :=
  ∀ s₁ s₂ : State, s₁.Inv → s₁.constructed = true → s₁.keylen.val = 0 →
    ∃ R Q t, exec .marshal s₁ = .next { s₁ with outbox := s₁.outbox ++ [.command R Q] } ∧
      exec (.unmarshal Q) s₂ = .next t ∧
      t = { s₂ with
        h := s₁.h, c := s₁.c, block := s₁.block, offset := s₁.offset, size := s₁.size
        keylen := s₁.keylen, key := s₁.key, constructed := true
        outbox := s₂.outbox ++ [.command 0#32 []] }

/-! ### The Compression Core -/

/-- R87 to R91: COMPRESS of one block: the counter advances by 64 with carry, the working vector is h, IV, the advanced
counter in v[12] and v[13] and the flag in v[14] only; 80 G; h[i] ^ v[i] ^ v[i+8]. -/
def Obligations.CompressOneBlock : Prop :=
  ∀ (s : State) (fin : Bool) (h : Vector Word 8) (ctr : Vector Word 2) (data : List Byte), data.length = 64 →
    let lo := ctr.get 0 + 64#32
    let hi := if lo.toNat < 64 then ctr.get 1 + 1#32 else ctr.get 1
    let f := if fin then 0xFFFFFFFF#32 else 0#32
    let m : Vector Word 16 := Vector.ofFn fun i : Fin 16 =>
      data.getD (4 * i.val + 3) 0 ++ data.getD (4 * i.val + 2) 0 ++ data.getD (4 * i.val + 1) 0 ++
        data.getD (4 * i.val) 0
    let v := mixed m #v[h[0], h[1], h[2], h[3], h[4], h[5], h[6], h[7], iv[0], iv[1], iv[2], iv[3],
      iv[4] ^^^ lo, iv[5] ^^^ hi, iv[6] ^^^ f, iv[7]]
    exec (.compress fin h ctr data) s = .next { s with
      outbox := s.outbox ++ [.core (Vector.ofFn fun i : Fin 8 => h[i] ^^^ v[i.val] ^^^ v[i.val + 8]) #v[lo, hi]] }

/-- R92, R93: N blocks in one call give what the first blocks and then the others give, in two calls. -/
def Obligations.CompressComposes : Prop :=
  ∀ (s : State) (fin : Bool) (h : Vector Word 8) (ctr : Vector Word 2) (A B : List Byte),
    64 ≤ A.length → A.length % 64 = 0 → 64 ≤ B.length → B.length % 64 = 0 →
    ∃ h₁ c₁ h₂ c₂,
      exec (.compress fin h ctr A) s = .next { s with outbox := s.outbox ++ [.core h₁ c₁] } ∧
      exec (.compress fin h₁ c₁ B) s = .next { s with outbox := s.outbox ++ [.core h₂ c₂] } ∧
      exec (.compress fin h ctr (A ++ B)) s = .next { s with outbox := s.outbox ++ [.core h₂ c₂] }

/-- R94: the result is a function of the operands alone, and no register of the engine changes. -/
def Obligations.CompressIsPure : Prop :=
  ∀ (fin : Bool) (h : Vector Word 8) (ctr : Vector Word 2) (data : List Byte),
    64 ≤ data.length → data.length % 64 = 0 →
    ∃ h' c', ∀ s : State,
      exec (.compress fin h ctr data) s = .next { s with outbox := s.outbox ++ [.core h' c'] }

/-- R57, R92, R154: COMPRESS on data that is not a positive whole number of blocks is refused. -/
def Obligations.CompressOutsideTheContractIsRefused : Prop :=
  ∀ (s : State) (fin : Bool) (h : Vector Word 8) (ctr : Vector Word 2) (data : List Byte),
    data.length = 0 ∨ data.length % 64 ≠ 0 → exec (.compress fin h ctr data) s = .refused .coreContract

/-- R87, R92: COMPRESS of N blocks counts 64 N bytes, modulo 2^64. -/
def Obligations.CompressCountsItsBytes : Prop :=
  ∀ (s : State) (fin : Bool) (h : Vector Word 8) (ctr : Vector Word 2) (data : List Byte),
    64 ≤ data.length → data.length % 64 = 0 →
    ∃ h' c', exec (.compress fin h ctr data) s = .next { s with outbox := s.outbox ++ [.core h' c'] } ∧
      counterValue c' = (counterValue ctr + data.length) % 2 ^ 64

/-- R83, R84: G is the eight assignments, in order, on the slot's four words with the round's two message words; nothing
else is touched. -/
def Obligations.GIsTheEightAssignments : Prop :=
  ∀ (s : State) (run : CoreRun) (r : Fin 10) (k : Fin 8), s.inside = some run →
    let q := slotIndices[k]
    let x := run.m[(sigma[r])[2 * k.val]]
    let y := run.m[(sigma[r])[2 * k.val + 1]]
    exec (.g r k) s =
      .next { s with inside := some { run with v := gLines q.1 q.2.1 q.2.2.1 q.2.2.2 x y run.v } }

/-- R16, R59, D30: between compressions v holds no value and G is never presented; the model refuses it. (The refusal is
the model's choice, notes/assumptions/4.md.) -/
def Obligations.GNeedsACompression : Prop :=
  ∀ (s : State) (r : Fin 10) (k : Fin 8), s.inside = none → exec (.g r k) s = .refused .coreIdle

/-- R83: for fixed x and y, G is a bijection on the four words it mixes. -/
def Obligations.GIsABijection : Prop :=
  ∀ x y : Word,
    Function.Bijective fun q : Word × Word × Word × Word => gWords q.1 q.2.1 q.2.2.1 q.2.2.2 x y

/-- R86: within the column step, and within the diagonal step, the order of the G does not matter. -/
def Obligations.LanesCommute : Prop :=
  ∀ (s : State) (run : CoreRun) (r : Fin 10) (a b : Fin 8), s.inside = some run → a.val / 4 = b.val / 4 →
    ∃ u w t, exec (.g r a) s = .next u ∧ exec (.g r b) u = .next t ∧
      exec (.g r b) s = .next w ∧ exec (.g r a) w = .next t

/-- R19, R85, R91, R92: taking one G at a time through a COMPRESS of N blocks, 80 N steps, ends in the very state that
COMPRESS run to completion gives. (Single steps through a COMPRESS are the model's choice, notes/assumptions/4.md.)
-/
def Obligations.MicroStepsRefineCompress : Prop :=
  ∀ (s : State) (fin : Bool) (x : Chain) (data : List Byte) (N : Nat),
    1 ≤ N → data.length = 64 * N → (∀ rest, s.inbox ≠ .powerOn :: rest) →
    ∃ t, exec (.compress fin x.h x.c data) { s with inside := none } = .next t ∧
      core.run (80 * N) { s with inside := some (CoreRun.start fin x data) } = .next t

/-! ### Rules of the whole machine -/

/-- R54: every reserved opcode answers IllegalCommand and changes nothing. -/
def Obligations.ReservedOpcodesAnswerIllegalCommand : Prop :=
  ∀ (s : State) (rsv : BitVec 4) (z : Byte) (P : List Byte),
    let answer : Host.Outcome State Fault Refusal :=
      .next { s with outbox := s.outbox ++ [.command 6#32 []] }
    exec (.reserved0 rsv z P) s = answer ∧ exec (.reserved9 rsv z P) s = answer ∧
    exec (.reservedA rsv z P) s = answer ∧ exec (.reservedB rsv z P) s = answer ∧
    exec (.reservedC rsv z P) s = answer ∧ exec (.reservedD rsv z P) s = answer ∧
    exec (.reservedE rsv z P) s = answer ∧ exec (.reservedF rsv z P) s = answer

/-- R46, R55: every command, in every state, completes and gives exactly one response, whose header carries a status
0 .. 8, zeros, and the length of the payload; an error has no payload. -/
def Obligations.EveryCommandAnswersOnce : Prop :=
  ∀ (s : State) (i : Instr), i.isCommand = true →
    ∃ R Q, (Answers (exec i s) fun t => Responds s t (.command R Q) ∧ t.inbox = s.inbox ∧ t.inside = s.inside) ∧
      R.toNat % 256 ≤ 8 ∧ R.toNat / 256 % 256 = 0 ∧ R.toNat / 65536 = Q.length ∧
      (R.toNat % 256 ≠ 0 → Q = [])

/-- R132: after a response with a nonzero status every element of the state has the value it had. -/
def Obligations.ErrorsChangeNothing : Prop :=
  ∀ (s t : State) (i : Instr) (R : Word) (Q : List Byte), i.isCommand = true →
    exec i s = .next t → Responds s t (.command R Q) → R.toNat % 256 ≠ 0 →
    t = { s with outbox := s.outbox ++ [.command R []] }

/-- R13, R14, R15: the configuration and the construct bit change only by INIT, INIT128, INIT256 and UNMARSHAL. -/
def Obligations.OnlyConstructionConfigures : Prop :=
  ∀ (s t : State) (i : Instr), configures i = false → exec i s = .next t →
    t.size = s.size ∧ t.keylen = s.keylen ∧ t.key = s.key ∧ t.constructed = s.constructed

/-- R138, R156: a keyed digest cannot be exported, whatever else is run on it. -/
def Obligations.KeyedDigestsAreNeverExported : Prop :=
  ∀ (s t : State) (i : Instr), s.constructed = true → 0 < s.keylen.val → configures i = false →
    exec i s = .next t →
    exec .marshal t = .next { t with outbox := t.outbox ++ [.command 3#32 []] }

/-- R138: on a keyed engine no response but a SUM's depends on the key, or on any hash word or buffered byte made with
it. -/
def Obligations.OnlyDigestsDependOnTheKey : Prop :=
  ∀ (s₁ s₂ t₁ t₂ : State) (i : Instr), s₁.constructed = true → s₂.constructed = true →
    0 < s₁.keylen.val → 0 < s₂.keylen.val → i ≠ .sum →
    exec i s₁ = .next t₁ → exec i s₂ = .next t₂ →
    ∃ rs, t₁.outbox = s₁.outbox ++ rs ∧ t₂.outbox = s₂.outbox ++ rs

/-- R23, R151, D6: what the registers hold before construction is never seen: two engines that differ in nothing else
give the same responses for ever, and are equal once constructed. (The zeros of State.reset, notes/assumptions/1.md,
play no part in it.) -/
def Obligations.UnwrittenRegistersAreNeverSeen : Prop :=
  ∀ (k : Nat) (s₁ s₂ : State), SameOutside s₁ s₂ →
    OutcomesAgree SameOutside (core.run k s₁) (core.run k s₂)

/-- R21, R16, R18: the invariant and the stream invariant hold right after power-on. -/
def Obligations.ResetMeetsTheInvariants : Prop := State.reset.Inv ∧ State.reset.StreamInv

/-- R21, R16, R18: every step keeps the invariant. -/
def Obligations.StepKeepsTheInvariant : Prop :=
  ∀ s t : State, s.Inv → step s = .next t → t.Inv

/-- R21: every instruction but UNMARSHAL keeps the counter a multiple of 64, and offset 0 for the empty digest alone. -/
def Obligations.StreamInvariantIsKept : Prop :=
  ∀ (s t : State) (i : Instr), (∀ P, i ≠ .unmarshal P) → s.StreamInv → exec i s = .next t → t.StreamInv
end

