-- ==== Sys2Proof/Laws/Bytes.lean ====
section
/-! SUPPORT. The byte registers: what a buffer write and a padded register read as. -/

namespace Sys2Proof.Machine

/-- The one lemma about a register write (R38): what every byte reads as afterwards. -/
theorem writeBytes_get {n : Nat} (p : List Byte) (reg : Vector Byte n) (i k : Nat) (hk : k < n) :
    (writeBytes reg i p)[k] = if i ≤ k then p.getD (k - i) reg[k] else reg[k] := by
  induction p generalizing reg i with
  | nil => simp [writeBytes]
  | cons b rest ih =>
    rw [writeBytes, ih]
    by_cases h1 : i + 1 ≤ k
    · have h2 : i ≤ k := by omega
      have h3 : k - i = (k - (i + 1)) + 1 := by omega
      have h4 : i ≠ k := by omega
      simp [h1, h2, h3, h4]
    · by_cases h2 : i = k
      · subst h2; simp
      · have h3 : ¬i ≤ k := by omega
        simp [h1, h3, h2]

@[simp] theorem bufferWrite_nil (block : Vector Byte 64) (i : Nat) : bufferWrite block i [] = block := rfl

theorem bufferWrite_get (block : Vector Byte 64) (i : Nat) (p : List Byte) (k : Nat) (hk : k < 64) :
    (bufferWrite block i p)[k] = if i ≤ k then p.getD (k - i) block[k] else block[k] :=
  writeBytes_get p block i k hk

theorem padded_get {n : Nat} (p : List Byte) (k : Nat) (hk : k < n) : (padded n p)[k] = p.getD k 0 := by
  simp [padded, writeBytes_get]

/-- A padded register depends on the bytes it can hold only. -/
theorem padded_take {n m : Nat} (p : List Byte) (h : n ≤ m) : padded n (p.take m) = padded n p := by
  ext k hk : 1
  have : k < m := by omega
  simp [padded_get, List.getD_eq_getElem?_getD, this]

theorem padded_toList {n : Nat} (v : Vector Byte n) : padded n v.toList = v := by
  ext k hk : 1
  simp [padded_get, List.getD_eq_getElem?_getD, hk]

/-- The bytes up to the end of a buffer write: those before it, then those written. -/
theorem bufferWrite_toList_take (block : Vector Byte 64) (i : Nat) (p : List Byte) (h : i + p.length ≤ 64) :
    (bufferWrite block i p).toList.take (i + p.length) = block.toList.take i ++ p := by
  apply List.ext_getElem
  · simp; omega
  · intro k h1 h2
    have hk : k < 64 := by simp at h1; omega
    simp only [List.getElem_take, Vector.getElem_toList, bufferWrite_get, List.getElem_append,
      List.length_take, Vector.length_toList]
    have h3 : min i 64 = i := by omega
    simp only [h3]
    by_cases h4 : k < i
    · simp [h4, Nat.not_le.mpr h4]
    · have h5 : k - i < p.length := by simp at h1; omega
      simp [h4, Nat.le_of_not_lt h4, List.getD_eq_getElem?_getD, h5]

/-- A buffer filled to its end. -/
theorem bufferWrite_toList_full (block : Vector Byte 64) (i : Nat) (p : List Byte) (h : i + p.length = 64) :
    (bufferWrite block i p).toList = block.toList.take i ++ p := by
  have := bufferWrite_toList_take block i p (by omega)
  rwa [h, List.take_of_length_le (by simp)] at this

theorem buffered_length (s : State) : s.buffered.length = s.offset.val := by
  have := s.offset.isLt
  simp [State.buffered]; omega

end Sys2Proof.Machine
end

