-- ==== Sys2Proof/Laws/Compression.lean ====
section
/-! SUPPORT. The Compression Core: COMPRESS over a concatenation, the counter as a 64-bit number, G as eight
assignments on the working vector. -/

namespace Sys2Proof.Machine

/-! ### COMPRESS is a left-to-right loop (R92) -/

theorem compressBlocks_add (f : Word) (a b : Nat) (x : Chain) (data : List Byte) :
    compressBlocks f (a + b) x data = compressBlocks f b (compressBlocks f a x data) (data.drop (64 * a)) := by
  induction a generalizing x data with
  | zero => simp [compressBlocks]
  | succ a ih =>
    have h1 : a + 1 + b = (a + b) + 1 := by omega
    have h2 : 64 * (a + 1) = 64 + 64 * a := by omega
    rw [h1, compressBlocks, compressBlocks, ih, List.drop_drop, h2]

/-- COMPRESS of n blocks reads the first 64 n bytes only. -/
theorem compressBlocks_take (f : Word) (n m : Nat) (x : Chain) (data : List Byte) (h : 64 * n ≤ m) :
    compressBlocks f n x (data.take m) = compressBlocks f n x data := by
  induction n generalizing x data m with
  | zero => rfl
  | succ n ih =>
    have h1 : 64 ≤ m := by omega
    rw [compressBlocks, compressBlocks, padded_take data h1, List.drop_take, ih _ _ _ (by omega)]

theorem compressBlocks_append (f : Word) (n : Nat) (x : Chain) (A B : List Byte) (h : 64 * n ≤ A.length) :
    compressBlocks f n x (A ++ B) = compressBlocks f n x A := by
  rw [← compressBlocks_take f n A.length x (A ++ B) h, List.take_left]

/-! ### The counter as a 64-bit number (R11, R87) -/

theorem counterValue_lt (ctr : Vector Word 2) : counterValue ctr < 2 ^ 64 := by
  have h0 := ctr[0].isLt
  have h1 := ctr[1].isLt
  unfold counterValue; omega

theorem counterValue_advance (ctr : Vector Word 2) :
    counterValue (counterAdvance ctr) = (counterValue ctr + 64) % 2 ^ 64 := by
  have h0 := ctr[0].isLt
  have h1 := ctr[1].isLt
  simp only [counterValue, counterAdvance, BitVec.lt_def]
  split <;> rename_i h <;> simp [BitVec.toNat_add] at h ⊢ <;> omega

theorem counterValue_correct (ctr : Vector Word 2) (rem : Nat) (h : rem ≤ 64) :
    counterValue (counterCorrect ctr rem) = (counterValue ctr + 2 ^ 64 - rem) % 2 ^ 64 := by
  have h0 := ctr[0].isLt
  have h1 := ctr[1].isLt
  simp only [counterValue, counterCorrect, BitVec.lt_def]
  split <;> rename_i h <;> simp [BitVec.toNat_sub] at h ⊢ <;> omega

@[simp] theorem compress1_c (f : Word) (x : Chain) (blk : Vector Byte 64) :
    (compress1 f x blk).c = counterAdvance x.c := rfl

/-- Each block is counted once, when it is compressed (R87, R92). -/
theorem counterValue_compressBlocks (f : Word) (n : Nat) (x : Chain) (data : List Byte) :
    counterValue (compressBlocks f n x data).c = (counterValue x.c + 64 * n) % 2 ^ 64 := by
  induction n generalizing x data with
  | zero => have := counterValue_lt x.c; simp only [compressBlocks]; omega
  | succ n ih => rw [compressBlocks, ih, compress1_c, counterValue_advance]; omega

/-! ### The working-vector load, word by word (R88) -/

theorem loadWork_eq (h : Vector Word 8) (ctr : Vector Word 2) (f : Word) :
    loadWork h ctr f =
      #v[h[0], h[1], h[2], h[3], h[4], h[5], h[6], h[7], iv[0], iv[1], iv[2], iv[3],
        iv[4] ^^^ ctr[0], iv[5] ^^^ ctr[1], iv[6] ^^^ f, iv[7]] := by
  ext i hi : 1
  have : i = 0 ∨ i = 1 ∨ i = 2 ∨ i = 3 ∨ i = 4 ∨ i = 5 ∨ i = 6 ∨ i = 7 ∨ i = 8 ∨ i = 9 ∨ i = 10 ∨ i = 11 ∨
      i = 12 ∨ i = 13 ∨ i = 14 ∨ i = 15 := by omega
  rcases this with rfl | rfl | rfl | rfl | rfl | rfl | rfl | rfl | rfl | rfl | rfl | rfl | rfl | rfl | rfl | rfl <;>
    simp [loadWork] <;>
    first
    | exact Vector.getElem_append_left _
    | exact Vector.getElem_append_right _ (by decide)

/-! ### G (R83, R84) -/

/-- The indices of a slot are pairwise different. -/
theorem slotIndices_distinct (s : Fin 8) :
    let q := slotIndices[s]
    q.1 ≠ q.2.1 ∧ q.1 ≠ q.2.2.1 ∧ q.1 ≠ q.2.2.2 ∧ q.2.1 ≠ q.2.2.1 ∧ q.2.1 ≠ q.2.2.2 ∧ q.2.2.1 ≠ q.2.2.2 := by
  revert s; decide

/-- Of eight writes to four different places, each written twice, the later four count. -/
theorem set_twice (a b d e : Fin 16) (v : Vector Word 16) (p₁ q₁ r₁ t₁ p₂ q₂ r₂ t₂ : Word)
    (h : a ≠ b ∧ a ≠ d ∧ a ≠ e ∧ b ≠ d ∧ b ≠ e ∧ d ≠ e) :
    (((((((v.set a p₁).set e q₁).set d r₁).set b t₁).set a p₂).set e q₂).set d r₂).set b t₂ =
      (((v.set a p₂).set b t₂).set d r₂).set e q₂ := by
  obtain ⟨hab, had, hae, hbd, hbe, hde⟩ := h
  have fab := Fin.val_ne_of_ne hab
  have fad := Fin.val_ne_of_ne had
  have fae := Fin.val_ne_of_ne hae
  have fbd := Fin.val_ne_of_ne hbd
  have fbe := Fin.val_ne_of_ne hbe
  have fde := Fin.val_ne_of_ne hde
  ext k hk : 1
  simp only [Vector.getElem_set]
  by_cases h1 : a.val = k
  · simp [h1, h1 ▸ fab.symm, h1 ▸ fad.symm, h1 ▸ fae.symm]
  · by_cases h2 : b.val = k
    · simp [h2, h2 ▸ fbd.symm, h2 ▸ fbe.symm]
    · by_cases h3 : d.val = k
      · simp [h2, h3, h3 ▸ fde.symm]
      · simp only [h1, h2, h3, if_false]; split <;> rfl

/-- With pairwise different indices the eight assignments are G on the four words. -/
theorem gLines_eq (a b d e : Fin 16) (x y : Word) (v : Vector Word 16)
    (h : a ≠ b ∧ a ≠ d ∧ a ≠ e ∧ b ≠ d ∧ b ≠ e ∧ d ≠ e) :
    gLines a b d e x y v =
      let r := gWords v[a] v[b] v[d] v[e] x y
      (((v.set a r.1).set b r.2.1).set d r.2.2.1).set e r.2.2.2 := by
  obtain ⟨hab, had, hae, hbd, hbe, hde⟩ := h
  have fab := Fin.val_ne_of_ne hab
  have fad := Fin.val_ne_of_ne had
  have fae := Fin.val_ne_of_ne hae
  have fbd := Fin.val_ne_of_ne hbd
  have fbe := Fin.val_ne_of_ne hbe
  have fde := Fin.val_ne_of_ne hde
  simp only [gLines, gWords, Fin.getElem_fin, Vector.getElem_set_self, Vector.getElem_set_ne, ne_eq, fab, fad, fae,
    fbd, fbe, fde, fab.symm, fad.symm, fae.symm, fbd.symm, fbe.symm, fde.symm, not_false_eq_true]
  exact set_twice a b d e v _ _ _ _ _ _ _ _ ⟨hab, had, hae, hbd, hbe, hde⟩

/-- G in round r and slot s is its eight assignments. -/
theorem gStep_eq_gLines (m : Vector Word 16) (r : Fin 10) (s : Fin 8) (v : Vector Word 16) :
    gStep m r s v =
      let q := slotIndices[s]
      gLines q.1 q.2.1 q.2.2.1 q.2.2.2 m[xIndex r s] m[yIndex r s] v :=
  (gLines_eq _ _ _ _ _ _ v (slotIndices_distinct s)).symm

/-- The ten rounds are the 80 micro-operations in sequencer order (R85, R91). -/
theorem tenRounds_eq_mixed (m v : Vector Word 16) : tenRounds m v = mixed m v := by
  have h : roundStep m = fun v r => (List.finRange 8).foldl (fun v s => gStep m r s v) v := rfl
  simp only [tenRounds, h, mixed, microOrder, List.foldl_flatMap, List.foldl_map, gStep_eq_gLines]

end Sys2Proof.Machine
end

