-- ==== Sys2Proof/Laws/Decode.lean ====
section
/-! SUPPORT. The fields of the header words, as numbers of the word and as read back from a word built of them. -/

namespace Sys2Proof

theorem payloadFits_iff (P : List Byte) : payloadFits P = true ↔ P.length < 65536 := by
  rw [payloadFits, decide_eq_true_iff, Config.lenMax]; omega

theorem dataFits_iff (data : List Byte) :
    dataFits data = true ↔ data.length % 64 = 0 ∧ 64 ≤ data.length ∧ data.length / 64 < 65536 := by
  rw [dataFits, Bool.and_eq_true, Bool.and_eq_true, decide_eq_true_iff, decide_eq_true_iff, decide_eq_true_iff,
    Config.blocksMax]
  omega

/-! ### Fields as numbers of the word (R50, R57, R59) -/

theorem opField_toNat (W : Word) : (opField W).toNat = W.toNat % 16 := by
  simp [opField]

theorem rsvField_toNat (W : Word) : (rsvField W).toNat = W.toNat / 16 % 16 := by
  simp [rsvField, Nat.shiftRight_eq_div_pow]

theorem outsizeField_toNat (W : Word) : (outsizeField W).toNat = W.toNat / 256 % 256 := by
  simp [outsizeField, Nat.shiftRight_eq_div_pow]

theorem lenField_toNat (W : Word) : (lenField W).toNat = W.toNat / 65536 := by
  have := W.isLt
  simp [lenField, Nat.shiftRight_eq_div_pow]; omega

theorem coreReserved_toNat (K : Word) : (coreReserved K).toNat = K.toNat / 2 % 32768 := by
  simp [coreReserved, Nat.shiftRight_eq_div_pow]

theorem nblkField_toNat (K : Word) : (nblkField K).toNat = K.toNat / 65536 := by
  have := K.isLt
  simp [nblkField, Nat.shiftRight_eq_div_pow]; omega

theorem roundField_toNat (U : BitVec 7) : (roundField U).toNat = U.toNat / 8 := by
  have := U.isLt
  simp [roundField, Nat.shiftRight_eq_div_pow]; omega

theorem slotField_toNat (U : BitVec 7) : (slotField U).toNat = U.toNat % 8 := by
  simp [slotField]

theorem field_eq_zero {n : Nat} (x : BitVec n) : x = 0 ↔ x.toNat = 0 := by
  constructor
  · rintro rfl; simp
  · intro h; exact BitVec.eq_of_toNat_eq (by simpa using h)

/-! ### Words built of fields -/

theorem append_toNat {n m : Nat} (a : BitVec n) (b : BitVec m) : (a ++ b).toNat = a.toNat * 2 ^ m + b.toNat := by
  rw [BitVec.toNat_append, ← Nat.shiftLeft_add_eq_or_of_lt b.isLt, Nat.shiftLeft_eq]

theorem headerWord_toNat (op rsv : BitVec 4) (z : Byte) (n : Nat) (h : n < 65536) :
    (headerWord op rsv z n).toNat = op.toNat + 16 * rsv.toNat + 256 * z.toNat + 65536 * n := by
  show (BitVec.ofNat 16 n ++ z ++ rsv ++ op).toNat = _
  simp only [append_toNat, BitVec.toNat_ofNat]; omega

theorem coreWord_toNat (fin : Bool) (n : Nat) (h : n < 65536) :
    (coreWord fin n).toNat = (if fin then 1 else 0) + 65536 * n := by
  show (BitVec.ofNat 16 n ++ 0#15 ++ BitVec.ofBool fin).toNat = _
  simp only [append_toNat, BitVec.toNat_ofNat]; cases fin <;> simp <;> omega

theorem microWord_toNat (r : Fin 10) (k : Fin 8) : (microWord r k).toNat = 8 * r.val + k.val := by
  have h1 := r.isLt
  have h2 := k.isLt
  show (BitVec.ofNat 4 r.val ++ BitVec.ofNat 3 k.val).toNat = _
  simp only [append_toNat, BitVec.toNat_ofNat]; omega

/-- A command's four fields are read back from its header word. -/
theorem headerWord_fields (op rsv : BitVec 4) (z : Byte) (n : Nat) (h : n < 65536) :
    opField (headerWord op rsv z n) = op ∧ rsvField (headerWord op rsv z n) = rsv ∧
      outsizeField (headerWord op rsv z n) = z ∧ (lenField (headerWord op rsv z n)).toNat = n := by
  have e := headerWord_toNat op rsv z n h
  have h1 := op.isLt
  have h2 := rsv.isLt
  have h3 := z.isLt
  refine ⟨BitVec.eq_of_toNat_eq ?_, BitVec.eq_of_toNat_eq ?_, BitVec.eq_of_toNat_eq ?_, ?_⟩
  · rw [opField_toNat, e]; omega
  · rw [rsvField_toNat, e]; omega
  · rw [outsizeField_toNat, e]; omega
  · rw [lenField_toNat, e]; omega

/-- A header word is the word of its own fields. -/
theorem headerWord_of_fields (W : Word) (n : Nat) (h : n = (lenField W).toNat) :
    headerWord (opField W) (rsvField W) (outsizeField W) n = W := by
  have hW := W.isLt
  rw [lenField_toNat] at h
  apply BitVec.eq_of_toNat_eq
  rw [headerWord_toNat _ _ _ _ (by omega), opField_toNat, rsvField_toNat, outsizeField_toNat]; omega

end Sys2Proof
end

