-- ==== Sys2Proof/Laws/State.lean ====
section
/-! SUPPORT. One lemma per field per update of State, so that no proof unfolds a record update. -/

namespace Sys2Proof.Machine

/-! ### respond -/

@[simp] theorem State.respond_h (S : Status) (Q : List Byte) (s : State) :
    (s.respond S Q).h = s.h := rfl
@[simp] theorem State.respond_c (S : Status) (Q : List Byte) (s : State) :
    (s.respond S Q).c = s.c := rfl
@[simp] theorem State.respond_block (S : Status) (Q : List Byte) (s : State) :
    (s.respond S Q).block = s.block := rfl
@[simp] theorem State.respond_offset (S : Status) (Q : List Byte) (s : State) :
    (s.respond S Q).offset = s.offset := rfl
@[simp] theorem State.respond_size (S : Status) (Q : List Byte) (s : State) :
    (s.respond S Q).size = s.size := rfl
@[simp] theorem State.respond_keylen (S : Status) (Q : List Byte) (s : State) :
    (s.respond S Q).keylen = s.keylen := rfl
@[simp] theorem State.respond_key (S : Status) (Q : List Byte) (s : State) :
    (s.respond S Q).key = s.key := rfl
@[simp] theorem State.respond_constructed (S : Status) (Q : List Byte) (s : State) :
    (s.respond S Q).constructed = s.constructed := rfl
@[simp] theorem State.respond_shadow (S : Status) (Q : List Byte) (s : State) :
    (s.respond S Q).shadow = s.shadow := rfl
@[simp] theorem State.respond_inside (S : Status) (Q : List Byte) (s : State) :
    (s.respond S Q).inside = s.inside := rfl
@[simp] theorem State.respond_inbox (S : Status) (Q : List Byte) (s : State) :
    (s.respond S Q).inbox = s.inbox := rfl
@[simp] theorem State.respond_outbox (S : Status) (Q : List Byte) (s : State) :
    (s.respond S Q).outbox = s.outbox ++ [.command (responseHeader S Q) Q] := rfl

/-! ### absorb -/

@[simp] theorem State.absorb_h (data : List Byte) (s : State) :
    (s.absorb data).h = (compress (finalizeFlag false) s.chain data).h := rfl
@[simp] theorem State.absorb_c (data : List Byte) (s : State) :
    (s.absorb data).c = (compress (finalizeFlag false) s.chain data).c := rfl
@[simp] theorem State.absorb_block (data : List Byte) (s : State) :
    (s.absorb data).block = s.block := rfl
@[simp] theorem State.absorb_offset (data : List Byte) (s : State) :
    (s.absorb data).offset = s.offset := rfl
@[simp] theorem State.absorb_size (data : List Byte) (s : State) :
    (s.absorb data).size = s.size := rfl
@[simp] theorem State.absorb_keylen (data : List Byte) (s : State) :
    (s.absorb data).keylen = s.keylen := rfl
@[simp] theorem State.absorb_key (data : List Byte) (s : State) :
    (s.absorb data).key = s.key := rfl
@[simp] theorem State.absorb_constructed (data : List Byte) (s : State) :
    (s.absorb data).constructed = s.constructed := rfl
@[simp] theorem State.absorb_shadow (data : List Byte) (s : State) :
    (s.absorb data).shadow = s.shadow := rfl
@[simp] theorem State.absorb_inside (data : List Byte) (s : State) :
    (s.absorb data).inside = s.inside := rfl
@[simp] theorem State.absorb_inbox (data : List Byte) (s : State) :
    (s.absorb data).inbox = s.inbox := rfl
@[simp] theorem State.absorb_outbox (data : List Byte) (s : State) :
    (s.absorb data).outbox = s.outbox := rfl

/-! ### keepTail -/

@[simp] theorem State.keepTail_h (P : List Byte) (s : State) :
    (s.keepTail P).h = s.h := rfl
@[simp] theorem State.keepTail_c (P : List Byte) (s : State) :
    (s.keepTail P).c = s.c := rfl
@[simp] theorem State.keepTail_block (P : List Byte) (s : State) :
    (s.keepTail P).block = bufferWrite s.block 0 P := rfl
@[simp] theorem State.keepTail_offset (P : List Byte) (s : State) :
    (s.keepTail P).offset = Fin.ofNat 65 P.length := rfl
@[simp] theorem State.keepTail_size (P : List Byte) (s : State) :
    (s.keepTail P).size = s.size := rfl
@[simp] theorem State.keepTail_keylen (P : List Byte) (s : State) :
    (s.keepTail P).keylen = s.keylen := rfl
@[simp] theorem State.keepTail_key (P : List Byte) (s : State) :
    (s.keepTail P).key = s.key := rfl
@[simp] theorem State.keepTail_constructed (P : List Byte) (s : State) :
    (s.keepTail P).constructed = s.constructed := rfl
@[simp] theorem State.keepTail_shadow (P : List Byte) (s : State) :
    (s.keepTail P).shadow = s.shadow := rfl
@[simp] theorem State.keepTail_inside (P : List Byte) (s : State) :
    (s.keepTail P).inside = s.inside := rfl
@[simp] theorem State.keepTail_inbox (P : List Byte) (s : State) :
    (s.keepTail P).inbox = s.inbox := rfl
@[simp] theorem State.keepTail_outbox (P : List Byte) (s : State) :
    (s.keepTail P).outbox = s.outbox := rfl

/-! ### writeFits -/

@[simp] theorem State.writeFits_h (P : List Byte) (s : State) :
    (s.writeFits P).h = s.h := rfl
@[simp] theorem State.writeFits_c (P : List Byte) (s : State) :
    (s.writeFits P).c = s.c := rfl
@[simp] theorem State.writeFits_block (P : List Byte) (s : State) :
    (s.writeFits P).block = bufferWrite s.block s.offset.val P := rfl
@[simp] theorem State.writeFits_offset (P : List Byte) (s : State) :
    (s.writeFits P).offset = Fin.ofNat 65 (s.offset.val + P.length) := rfl
@[simp] theorem State.writeFits_size (P : List Byte) (s : State) :
    (s.writeFits P).size = s.size := rfl
@[simp] theorem State.writeFits_keylen (P : List Byte) (s : State) :
    (s.writeFits P).keylen = s.keylen := rfl
@[simp] theorem State.writeFits_key (P : List Byte) (s : State) :
    (s.writeFits P).key = s.key := rfl
@[simp] theorem State.writeFits_constructed (P : List Byte) (s : State) :
    (s.writeFits P).constructed = s.constructed := rfl
@[simp] theorem State.writeFits_shadow (P : List Byte) (s : State) :
    (s.writeFits P).shadow = s.shadow := rfl
@[simp] theorem State.writeFits_inside (P : List Byte) (s : State) :
    (s.writeFits P).inside = s.inside := rfl
@[simp] theorem State.writeFits_inbox (P : List Byte) (s : State) :
    (s.writeFits P).inbox = s.inbox := rfl
@[simp] theorem State.writeFits_outbox (P : List Byte) (s : State) :
    (s.writeFits P).outbox = s.outbox := rfl

/-! ### topUp -/

@[simp] theorem State.topUp_block (P : List Byte) (s : State) :
    (s.topUp P).block = bufferWrite s.block s.offset.val (P.take (64 - s.offset.val)) := rfl
@[simp] theorem State.topUp_offset (P : List Byte) (s : State) :
    (s.topUp P).offset = 0 := rfl
@[simp] theorem State.topUp_size (P : List Byte) (s : State) :
    (s.topUp P).size = s.size := rfl
@[simp] theorem State.topUp_keylen (P : List Byte) (s : State) :
    (s.topUp P).keylen = s.keylen := rfl
@[simp] theorem State.topUp_key (P : List Byte) (s : State) :
    (s.topUp P).key = s.key := rfl
@[simp] theorem State.topUp_constructed (P : List Byte) (s : State) :
    (s.topUp P).constructed = s.constructed := rfl
@[simp] theorem State.topUp_shadow (P : List Byte) (s : State) :
    (s.topUp P).shadow = s.shadow := rfl
@[simp] theorem State.topUp_inside (P : List Byte) (s : State) :
    (s.topUp P).inside = s.inside := rfl
@[simp] theorem State.topUp_inbox (P : List Byte) (s : State) :
    (s.topUp P).inbox = s.inbox := rfl
@[simp] theorem State.topUp_outbox (P : List Byte) (s : State) :
    (s.topUp P).outbox = s.outbox := rfl

/-! ### writeFresh -/

@[simp] theorem State.writeFresh_h (P : List Byte) (s : State) :
    (s.writeFresh P).h = (compress (finalizeFlag false) s.chain (P.take (directBytes P.length))).h := rfl
@[simp] theorem State.writeFresh_c (P : List Byte) (s : State) :
    (s.writeFresh P).c = (compress (finalizeFlag false) s.chain (P.take (directBytes P.length))).c := rfl
@[simp] theorem State.writeFresh_block (P : List Byte) (s : State) :
    (s.writeFresh P).block = bufferWrite s.block 0 (P.drop (directBytes P.length)) := rfl
@[simp] theorem State.writeFresh_offset (P : List Byte) (s : State) :
    (s.writeFresh P).offset = Fin.ofNat 65 (P.drop (directBytes P.length)).length := rfl
@[simp] theorem State.writeFresh_size (P : List Byte) (s : State) :
    (s.writeFresh P).size = s.size := rfl
@[simp] theorem State.writeFresh_keylen (P : List Byte) (s : State) :
    (s.writeFresh P).keylen = s.keylen := rfl
@[simp] theorem State.writeFresh_key (P : List Byte) (s : State) :
    (s.writeFresh P).key = s.key := rfl
@[simp] theorem State.writeFresh_constructed (P : List Byte) (s : State) :
    (s.writeFresh P).constructed = s.constructed := rfl
@[simp] theorem State.writeFresh_shadow (P : List Byte) (s : State) :
    (s.writeFresh P).shadow = s.shadow := rfl
@[simp] theorem State.writeFresh_inside (P : List Byte) (s : State) :
    (s.writeFresh P).inside = s.inside := rfl
@[simp] theorem State.writeFresh_inbox (P : List Byte) (s : State) :
    (s.writeFresh P).inbox = s.inbox := rfl
@[simp] theorem State.writeFresh_outbox (P : List Byte) (s : State) :
    (s.writeFresh P).outbox = s.outbox := rfl

/-! ### written -/

@[simp] theorem State.written_size (P : List Byte) (s : State) :
    (s.written P).size = s.size := by
  unfold State.written; split <;> [split; skip] <;> rfl
@[simp] theorem State.written_keylen (P : List Byte) (s : State) :
    (s.written P).keylen = s.keylen := by
  unfold State.written; split <;> [split; skip] <;> rfl
@[simp] theorem State.written_key (P : List Byte) (s : State) :
    (s.written P).key = s.key := by
  unfold State.written; split <;> [split; skip] <;> rfl
@[simp] theorem State.written_constructed (P : List Byte) (s : State) :
    (s.written P).constructed = s.constructed := by
  unfold State.written; split <;> [split; skip] <;> rfl
@[simp] theorem State.written_shadow (P : List Byte) (s : State) :
    (s.written P).shadow = s.shadow := by
  unfold State.written; split <;> [split; skip] <;> rfl
@[simp] theorem State.written_inside (P : List Byte) (s : State) :
    (s.written P).inside = s.inside := by
  unfold State.written; split <;> [split; skip] <;> rfl
@[simp] theorem State.written_inbox (P : List Byte) (s : State) :
    (s.written P).inbox = s.inbox := by
  unfold State.written; split <;> [split; skip] <;> rfl
@[simp] theorem State.written_outbox (P : List Byte) (s : State) :
    (s.written P).outbox = s.outbox := by
  unfold State.written; split <;> [split; skip] <;> rfl

/-! ### seed -/

@[simp] theorem State.seed_c (s : State) :
    (s.seed).c = #v[0, 0] := by
  unfold State.seed; dsimp only; split <;> rfl
@[simp] theorem State.seed_size (s : State) :
    (s.seed).size = s.size := by
  unfold State.seed; dsimp only; split <;> rfl
@[simp] theorem State.seed_keylen (s : State) :
    (s.seed).keylen = s.keylen := by
  unfold State.seed; dsimp only; split <;> rfl
@[simp] theorem State.seed_key (s : State) :
    (s.seed).key = s.key := by
  unfold State.seed; dsimp only; split <;> rfl
@[simp] theorem State.seed_constructed (s : State) :
    (s.seed).constructed = s.constructed := by
  unfold State.seed; dsimp only; split <;> rfl
@[simp] theorem State.seed_shadow (s : State) :
    (s.seed).shadow = s.shadow := by
  unfold State.seed; dsimp only; split <;> rfl
@[simp] theorem State.seed_inside (s : State) :
    (s.seed).inside = s.inside := by
  unfold State.seed; dsimp only; split <;> rfl
@[simp] theorem State.seed_inbox (s : State) :
    (s.seed).inbox = s.inbox := by
  unfold State.seed; dsimp only; split <;> rfl
@[simp] theorem State.seed_outbox (s : State) :
    (s.seed).outbox = s.outbox := by
  unfold State.seed; dsimp only; split <;> rfl

/-! ### configure -/

@[simp] theorem State.configure_h (z : Fin 33) (P : List Byte) (s : State) :
    (s.configure z P).h = s.h := rfl
@[simp] theorem State.configure_c (z : Fin 33) (P : List Byte) (s : State) :
    (s.configure z P).c = s.c := rfl
@[simp] theorem State.configure_block (z : Fin 33) (P : List Byte) (s : State) :
    (s.configure z P).block = Vector.replicate 64 0 := rfl
@[simp] theorem State.configure_offset (z : Fin 33) (P : List Byte) (s : State) :
    (s.configure z P).offset = s.offset := rfl
@[simp] theorem State.configure_size (z : Fin 33) (P : List Byte) (s : State) :
    (s.configure z P).size = z := rfl
@[simp] theorem State.configure_keylen (z : Fin 33) (P : List Byte) (s : State) :
    (s.configure z P).keylen = Fin.ofNat 33 P.length := rfl
@[simp] theorem State.configure_key (z : Fin 33) (P : List Byte) (s : State) :
    (s.configure z P).key = padded 32 P := rfl
@[simp] theorem State.configure_constructed (z : Fin 33) (P : List Byte) (s : State) :
    (s.configure z P).constructed = s.constructed := rfl
@[simp] theorem State.configure_shadow (z : Fin 33) (P : List Byte) (s : State) :
    (s.configure z P).shadow = s.shadow := rfl
@[simp] theorem State.configure_inside (z : Fin 33) (P : List Byte) (s : State) :
    (s.configure z P).inside = s.inside := rfl
@[simp] theorem State.configure_inbox (z : Fin 33) (P : List Byte) (s : State) :
    (s.configure z P).inbox = s.inbox := rfl
@[simp] theorem State.configure_outbox (z : Fin 33) (P : List Byte) (s : State) :
    (s.configure z P).outbox = s.outbox := rfl

/-! ### construct -/

@[simp] theorem State.construct_c (z : Fin 33) (P : List Byte) (s : State) :
    (s.construct z P).c = #v[0, 0] := by simp [State.construct]
@[simp] theorem State.construct_size (z : Fin 33) (P : List Byte) (s : State) :
    (s.construct z P).size = z := by simp [State.construct]
@[simp] theorem State.construct_keylen (z : Fin 33) (P : List Byte) (s : State) :
    (s.construct z P).keylen = Fin.ofNat 33 P.length := by simp [State.construct]
@[simp] theorem State.construct_key (z : Fin 33) (P : List Byte) (s : State) :
    (s.construct z P).key = padded 32 P := by simp [State.construct]
@[simp] theorem State.construct_constructed (z : Fin 33) (P : List Byte) (s : State) :
    (s.construct z P).constructed = true := by simp [State.construct]
@[simp] theorem State.construct_shadow (z : Fin 33) (P : List Byte) (s : State) :
    (s.construct z P).shadow = s.shadow := by simp [State.construct]
@[simp] theorem State.construct_inside (z : Fin 33) (P : List Byte) (s : State) :
    (s.construct z P).inside = s.inside := by simp [State.construct]
@[simp] theorem State.construct_inbox (z : Fin 33) (P : List Byte) (s : State) :
    (s.construct z P).inbox = s.inbox := by simp [State.construct]
@[simp] theorem State.construct_outbox (z : Fin 33) (P : List Byte) (s : State) :
    (s.construct z P).outbox = s.outbox := by simp [State.construct]

/-! ### openShadow -/

@[simp] theorem State.openShadow_h (s : State) :
    (s.openShadow).h = s.h := rfl
@[simp] theorem State.openShadow_c (s : State) :
    (s.openShadow).c = s.c := rfl
@[simp] theorem State.openShadow_block (s : State) :
    (s.openShadow).block = s.block := rfl
@[simp] theorem State.openShadow_offset (s : State) :
    (s.openShadow).offset = s.offset := rfl
@[simp] theorem State.openShadow_size (s : State) :
    (s.openShadow).size = s.size := rfl
@[simp] theorem State.openShadow_keylen (s : State) :
    (s.openShadow).keylen = s.keylen := rfl
@[simp] theorem State.openShadow_key (s : State) :
    (s.openShadow).key = s.key := rfl
@[simp] theorem State.openShadow_constructed (s : State) :
    (s.openShadow).constructed = s.constructed := rfl
@[simp] theorem State.openShadow_shadow (s : State) :
    (s.openShadow).shadow = some { hs := s.h, cs := counterCorrect s.c (64 - s.offset.val), bs := padded 64 s.buffered } := rfl
@[simp] theorem State.openShadow_inside (s : State) :
    (s.openShadow).inside = s.inside := rfl
@[simp] theorem State.openShadow_inbox (s : State) :
    (s.openShadow).inbox = s.inbox := rfl
@[simp] theorem State.openShadow_outbox (s : State) :
    (s.openShadow).outbox = s.outbox := rfl

/-! ### finaliseShadow -/

@[simp] theorem State.finaliseShadow_h (s : State) :
    (s.finaliseShadow).h = s.h := by
  unfold State.finaliseShadow; split <;> rfl
@[simp] theorem State.finaliseShadow_c (s : State) :
    (s.finaliseShadow).c = s.c := by
  unfold State.finaliseShadow; split <;> rfl
@[simp] theorem State.finaliseShadow_block (s : State) :
    (s.finaliseShadow).block = s.block := by
  unfold State.finaliseShadow; split <;> rfl
@[simp] theorem State.finaliseShadow_offset (s : State) :
    (s.finaliseShadow).offset = s.offset := by
  unfold State.finaliseShadow; split <;> rfl
@[simp] theorem State.finaliseShadow_size (s : State) :
    (s.finaliseShadow).size = s.size := by
  unfold State.finaliseShadow; split <;> rfl
@[simp] theorem State.finaliseShadow_keylen (s : State) :
    (s.finaliseShadow).keylen = s.keylen := by
  unfold State.finaliseShadow; split <;> rfl
@[simp] theorem State.finaliseShadow_key (s : State) :
    (s.finaliseShadow).key = s.key := by
  unfold State.finaliseShadow; split <;> rfl
@[simp] theorem State.finaliseShadow_constructed (s : State) :
    (s.finaliseShadow).constructed = s.constructed := by
  unfold State.finaliseShadow; split <;> rfl
@[simp] theorem State.finaliseShadow_inside (s : State) :
    (s.finaliseShadow).inside = s.inside := by
  unfold State.finaliseShadow; split <;> rfl
@[simp] theorem State.finaliseShadow_inbox (s : State) :
    (s.finaliseShadow).inbox = s.inbox := by
  unfold State.finaliseShadow; split <;> rfl
@[simp] theorem State.finaliseShadow_outbox (s : State) :
    (s.finaliseShadow).outbox = s.outbox := by
  unfold State.finaliseShadow; split <;> rfl

/-! ### closeShadow -/

@[simp] theorem State.closeShadow_h (s : State) :
    (s.closeShadow).h = s.h := rfl
@[simp] theorem State.closeShadow_c (s : State) :
    (s.closeShadow).c = s.c := rfl
@[simp] theorem State.closeShadow_block (s : State) :
    (s.closeShadow).block = s.block := rfl
@[simp] theorem State.closeShadow_offset (s : State) :
    (s.closeShadow).offset = s.offset := rfl
@[simp] theorem State.closeShadow_size (s : State) :
    (s.closeShadow).size = s.size := rfl
@[simp] theorem State.closeShadow_keylen (s : State) :
    (s.closeShadow).keylen = s.keylen := rfl
@[simp] theorem State.closeShadow_key (s : State) :
    (s.closeShadow).key = s.key := rfl
@[simp] theorem State.closeShadow_constructed (s : State) :
    (s.closeShadow).constructed = s.constructed := rfl
@[simp] theorem State.closeShadow_shadow (s : State) :
    (s.closeShadow).shadow = none := rfl
@[simp] theorem State.closeShadow_inside (s : State) :
    (s.closeShadow).inside = s.inside := rfl
@[simp] theorem State.closeShadow_inbox (s : State) :
    (s.closeShadow).inbox = s.inbox := rfl
@[simp] theorem State.closeShadow_outbox (s : State) :
    (s.closeShadow).outbox = s.outbox := rfl

/-! ### restored -/

@[simp] theorem State.restored_h (P : List Byte) (z : Fin 33) (o : Fin 65) (s : State) :
    (s.restored P z o).h = Vector.ofFn fun i : Fin 8 => bewordAt P (3 + 4 * i.val) := rfl
@[simp] theorem State.restored_c (P : List Byte) (z : Fin 33) (o : Fin 65) (s : State) :
    (s.restored P z o).c = #v[bewordAt P 35, bewordAt P 39] := rfl
@[simp] theorem State.restored_block (P : List Byte) (z : Fin 33) (o : Fin 65) (s : State) :
    (s.restored P z o).block = padded 64 (P.drop 44) := rfl
@[simp] theorem State.restored_offset (P : List Byte) (z : Fin 33) (o : Fin 65) (s : State) :
    (s.restored P z o).offset = o := rfl
@[simp] theorem State.restored_size (P : List Byte) (z : Fin 33) (o : Fin 65) (s : State) :
    (s.restored P z o).size = z := rfl
@[simp] theorem State.restored_keylen (P : List Byte) (z : Fin 33) (o : Fin 65) (s : State) :
    (s.restored P z o).keylen = 0 := rfl
@[simp] theorem State.restored_key (P : List Byte) (z : Fin 33) (o : Fin 65) (s : State) :
    (s.restored P z o).key = Vector.replicate 32 0 := rfl
@[simp] theorem State.restored_constructed (P : List Byte) (z : Fin 33) (o : Fin 65) (s : State) :
    (s.restored P z o).constructed = true := rfl
@[simp] theorem State.restored_shadow (P : List Byte) (z : Fin 33) (o : Fin 65) (s : State) :
    (s.restored P z o).shadow = s.shadow := rfl
@[simp] theorem State.restored_inside (P : List Byte) (z : Fin 33) (o : Fin 65) (s : State) :
    (s.restored P z o).inside = s.inside := rfl
@[simp] theorem State.restored_inbox (P : List Byte) (z : Fin 33) (o : Fin 65) (s : State) :
    (s.restored P z o).inbox = s.inbox := rfl
@[simp] theorem State.restored_outbox (P : List Byte) (z : Fin 33) (o : Fin 65) (s : State) :
    (s.restored P z o).outbox = s.outbox := rfl

/-! ### powerOn -/

@[simp] theorem State.powerOn_h (s : State) :
    (s.powerOn).h = State.reset.h := rfl
@[simp] theorem State.powerOn_c (s : State) :
    (s.powerOn).c = State.reset.c := rfl
@[simp] theorem State.powerOn_block (s : State) :
    (s.powerOn).block = State.reset.block := rfl
@[simp] theorem State.powerOn_offset (s : State) :
    (s.powerOn).offset = State.reset.offset := rfl
@[simp] theorem State.powerOn_size (s : State) :
    (s.powerOn).size = State.reset.size := rfl
@[simp] theorem State.powerOn_keylen (s : State) :
    (s.powerOn).keylen = State.reset.keylen := rfl
@[simp] theorem State.powerOn_key (s : State) :
    (s.powerOn).key = State.reset.key := rfl
@[simp] theorem State.powerOn_constructed (s : State) :
    (s.powerOn).constructed = State.reset.constructed := rfl
@[simp] theorem State.powerOn_shadow (s : State) :
    (s.powerOn).shadow = State.reset.shadow := rfl
@[simp] theorem State.powerOn_inside (s : State) :
    (s.powerOn).inside = State.reset.inside := rfl
@[simp] theorem State.powerOn_inbox (s : State) :
    (s.powerOn).inbox = s.inbox := rfl
@[simp] theorem State.powerOn_outbox (s : State) :
    (s.powerOn).outbox = s.outbox := rfl

end Sys2Proof.Machine
end

