-- ==== Sys2Proof/Laws/Stream.lean ====
section
/-! SUPPORT. WRITE said once (R104, R105): of the buffered bytes and the payload together, all but the last 1 .. 64 are
compressed, and the rest is buffered. -/

namespace Sys2Proof.Machine

/-- How many whole blocks of T bytes are compressed: all but the last 1 .. 64 bytes (R105 b). -/
def interiorBlocks (T : Nat) : Nat := (T + 63) / 64 - 1

theorem interiorBlocks_small {T : Nat} (h : T ≤ 64) : interiorBlocks T = 0 := by unfold interiorBlocks; omega

theorem directBytes_eq (L : Nat) : directBytes L = 64 * interiorBlocks L := by
  simp only [directBytes, interiorBlocks]
  split
  · split <;> omega
  · omega

theorem interiorBlocks_rest (T : Nat) : T - 64 * interiorBlocks T ≤ 64 ∧ 64 * interiorBlocks T ≤ T := by
  unfold interiorBlocks; omega

/-- The chain after compressing a payload's direct bytes. -/
theorem compress_direct (f : Word) (x : Chain) (P : List Byte) :
    compress f x (P.take (directBytes P.length)) = compressBlocks f (interiorBlocks P.length) x P := by
  have h := (interiorBlocks_rest P.length).2
  have h1 : (P.take (directBytes P.length)).length / 64 = interiorBlocks P.length := by
    rw [List.length_take, directBytes_eq]; omega
  rw [compress, h1, directBytes_eq]
  exact compressBlocks_take _ _ _ _ _ (Nat.le_refl _)

/-- What WRITE leaves, for the bytes T = buffered ++ payload and the N interior blocks of T: the chain, the offset, the
buffered bytes, and the stale bytes. -/
structure WriteResult (s t : State) (P : List Byte) : Prop where
  chain : t.chain = compressBlocks 0#32 (interiorBlocks (s.buffered ++ P).length) s.chain (s.buffered ++ P)
  offset : t.offset.val = (s.buffered ++ P).length - 64 * interiorBlocks (s.buffered ++ P).length
  buffered : t.buffered = (s.buffered ++ P).drop (64 * interiorBlocks (s.buffered ++ P).length)
  stale : ∀ i (_ : i < 64), t.offset.val ≤ i →
    t.block[i] = if 0 < s.offset.val ∧ 0 < interiorBlocks (s.buffered ++ P).length
      then (s.buffered ++ P).getD i 0 else s.block[i]

theorem written_fits (s : State) (P : List Byte) (h : P.length ≤ 64 - s.offset.val) :
    WriteResult s (s.writeFits P) P := by
  have ho := s.offset.isLt
  have hl := buffered_length s
  have hT : (s.buffered ++ P).length = s.offset.val + P.length := by simp [hl]
  have hN : interiorBlocks (s.buffered ++ P).length = 0 := interiorBlocks_small (by omega)
  have hoff : (s.writeFits P).offset.val = s.offset.val + P.length := by
    simp; omega
  refine ⟨?_, ?_, ?_, ?_⟩
  · rw [hN]; rfl
  · rw [hN, hoff]; omega
  · rw [hN, State.buffered, hoff]
    exact bufferWrite_toList_take s.block s.offset.val P (by omega)
  · intro i hi hge
    rw [hoff] at hge
    simp only [hN, State.writeFits_block, bufferWrite_get, Nat.lt_irrefl, and_false, if_false]
    have h1 : s.offset.val ≤ i := by omega
    have h2 : P.length ≤ i - s.offset.val := by omega
    simp [h1, List.getD_eq_getElem?_getD, List.getElem?_eq_none h2]

theorem written_fresh (s : State) (P : List Byte) (h : s.offset.val = 0) :
    WriteResult s (s.writeFresh P) P := by
  have hb : s.buffered = [] := by simp [State.buffered, h]
  obtain ⟨h1, h2⟩ := interiorBlocks_rest P.length
  have hlen : (P.drop (directBytes P.length)).length = P.length - 64 * interiorBlocks P.length := by
    rw [List.length_drop, directBytes_eq]
  have hoff : (s.writeFresh P).offset.val = P.length - 64 * interiorBlocks P.length := by
    rw [State.writeFresh_offset, hlen]; simp; omega
  refine ⟨?_, ?_, ?_, ?_⟩
  · rw [hb, List.nil_append, ← compress_direct]; rfl
  · rw [hb, List.nil_append, hoff]
  · rw [hb, List.nil_append, State.buffered, hoff, State.writeFresh_block, ← hlen]
    have := bufferWrite_toList_take s.block 0 (P.drop (directBytes P.length)) (by omega)
    simpa [directBytes_eq] using this
  · intro i hi hge
    rw [hoff] at hge
    have h3 : (P.drop (directBytes P.length)).length ≤ i := by omega
    rw [State.writeFresh_block, bufferWrite_get]
    simp [h, List.getD_eq_getElem?_getD, List.getElem?_eq_none h3]

theorem written_topUp (s : State) (P : List Byte) (h0 : 0 < s.offset.val) (h : 64 - s.offset.val < P.length) :
    WriteResult s (State.writeFresh (P.drop (64 - s.offset.val)) (s.topUp P)) P := by
  have ho := s.offset.isLt
  have hl := buffered_length s
  have hT : (s.buffered ++ P).length = s.offset.val + P.length := by simp [hl]
  have hlen : (P.take (64 - s.offset.val)).length = 64 - s.offset.val := by simp; omega
  have hfull : (bufferWrite s.block s.offset.val (P.take (64 - s.offset.val))).toList = (s.buffered ++ P).take 64 := by
    rw [bufferWrite_toList_full _ _ _ (by omega), List.take_append, hl,
      List.take_of_length_le (l := s.buffered) (by omega)]
    rfl
  have hchain : (s.topUp P).chain = compress1 0#32 s.chain (padded 64 (s.buffered ++ P)) := by
    have h1 : (s.topUp P).chain =
        compress 0#32 s.chain (bufferWrite s.block s.offset.val (P.take (64 - s.offset.val))).toList := rfl
    rw [h1, hfull, compress]
    have h2 : ((s.buffered ++ P).take 64).length / 64 = 1 := by rw [List.length_take]; omega
    rw [h2, compressBlocks, compressBlocks, padded_take _ (Nat.le_refl _)]
  have hdrop : P.drop (64 - s.offset.val) = (s.buffered ++ P).drop 64 := by
    rw [List.drop_append, hl, List.drop_of_length_le (l := s.buffered) (by omega), List.nil_append]
  obtain ⟨c1, c2, c3, c4⟩ := written_fresh (s.topUp P) (P.drop (64 - s.offset.val)) (by simp)
  have hb : (s.topUp P).buffered = [] := by simp [State.buffered]
  rw [hb, List.nil_append] at c1 c2 c3
  simp only [hb, List.nil_append, State.topUp_offset] at c4
  rw [hdrop] at c1 c2 c3 c4 ⊢
  have hlen2 : ((s.buffered ++ P).drop 64).length = (s.buffered ++ P).length - 64 := by simp
  have hN : interiorBlocks (s.buffered ++ P).length = 1 + interiorBlocks ((s.buffered ++ P).drop 64).length := by
    rw [hlen2]; unfold interiorBlocks; omega
  have hmul : 64 * (1 + interiorBlocks ((s.buffered ++ P).drop 64).length)
      = 64 + 64 * interiorBlocks ((s.buffered ++ P).drop 64).length := by omega
  refine ⟨?_, ?_, ?_, ?_⟩
  · rw [c1, hchain, hN, compressBlocks_add]; rfl
  · rw [c2, hN, hmul, hlen2]; omega
  · rw [c3, hN, hmul, List.drop_drop]
  · intro i hi hge
    rw [c4 i hi hge]
    have h1 : 0 < s.offset.val ∧ 0 < interiorBlocks (s.buffered ++ P).length := ⟨h0, by omega⟩
    have h2 : (s.topUp P).block[i] = (s.topUp P).block.toList[i]'(by simpa using hi) := by simp
    rw [if_pos h1]
    simp only [Fin.val_zero, Nat.lt_irrefl, false_and, if_false]
    rw [h2]
    simp only [State.topUp_block, hfull, List.getElem_take]
    rw [List.getD_eq_getElem?_getD, List.getElem?_eq_getElem (by omega), Option.getD_some]

/-- WRITE's one spec lemma (R104, R105). -/
theorem written_spec (s : State) (P : List Byte) : WriteResult s (s.written P) P := by
  unfold State.written
  split
  · split
    · exact written_fits s P ‹_›
    · exact written_topUp s P ‹_› (by omega)
  · exact written_fresh s P (by omega)

end Sys2Proof.Machine
end

