-- ==== Sys2Proof/Laws/Ops.lean ====
section
/-! SUPPORT. What each shared operation and each meaning can do, said once: the responses, SEED and construction, SUM's
copies, and the two ways a command can end. -/

namespace Sys2Proof.Machine

/-! ### Response headers (R55) -/

theorem responseHeader_toNat (S : Status) (Q : List Byte) (h : Q.length < 65536) :
    (responseHeader S Q).toNat = S.code.toNat + 65536 * Q.length := by
  have h1 := S.code.isLt
  have e : (BitVec.ofNat 16 Q.length ++ 0#8).toNat = Q.length * 256 := by
    rw [BitVec.toNat_append, ← Nat.shiftLeft_add_eq_or_of_lt (by simp), Nat.shiftLeft_eq]
    simp; omega
  show ((BitVec.ofNat 16 Q.length ++ 0#8) ++ S.code).toNat = _
  rw [BitVec.toNat_append, ← Nat.shiftLeft_add_eq_or_of_lt (by simpa using h1), Nat.shiftLeft_eq, e]
  omega

theorem Status.code_le (S : Status) : S.code.toNat ≤ 8 := by cases S <;> decide

theorem Status.code_eq_zero {S : Status} (h : S.code.toNat = 0) : S = .ok := by cases S <;> first | rfl | (revert h; decide)

/-! ### SEED and construction (R100, R101) -/

theorem parameterWord_eq (size keylen : Nat) :
    parameterWord size keylen =
      BitVec.ofNat 32 size ||| (BitVec.ofNat 32 keylen <<< 8) ||| 0x01010000#32 := by
  have h : (0x01010000#32) = ((1#32) <<< 16) ||| ((1#32) <<< 24) := by decide
  rw [parameterWord, h, BitVec.or_assoc _ ((1#32) <<< 16)]

@[simp] theorem keyed_iff (s : State) : s.keyed = true ↔ 0 < s.keylen.val := by simp [State.keyed]

theorem seed_h (s : State) : s.seed.h = iv.set 0 (iv[0] ^^^ parameterWord s.size.val s.keylen.val) := by
  unfold State.seed; dsimp only; split <;> rfl

theorem seed_offset (s : State) : s.seed.offset = if s.keylen.val = 0 then 0 else 64 := by
  unfold State.seed; dsimp only
  by_cases h : s.keylen.val = 0
  · simp [State.keyed, h]
  · have h' : 0 < s.keylen.val := by omega
    simp only [State.keyed, h, h', decide_true, if_true, if_false]

theorem seed_block_unkeyed (s : State) (h : s.keylen.val = 0) : s.seed.block = s.block := by
  unfold State.seed; dsimp only; simp [State.keyed, h]

theorem seed_block_keyed (s : State) (h : 0 < s.keylen.val) (k : Nat) (hk : k < 64) :
    s.seed.block[k] = if h' : k < 32 then s.key[k] else 0#8 := by
  have : s.seed.block = bufferWrite (bufferWrite s.block 0 s.key.toList) 32 (zeros 32) := by
    unfold State.seed; dsimp only; simp [State.keyed, h]
  have z : ∀ (d : Byte), k - 32 < 32 → (zeros 32).getD (k - 32) d = 0#8 := by
    intro d h1; simp only [zeros, List.getD_eq_getElem?_getD, List.getElem?_replicate, h1, if_true, Option.getD_some]
    rfl
  simp only [this, bufferWrite_get, Nat.zero_le, if_true, Nat.sub_zero]
  by_cases h' : k < 32
  · simp [h', Nat.not_le.mpr h', List.getD_eq_getElem?_getD]
  · simp only [h', Nat.le_of_not_lt h', if_true, dite_false]
    exact z _ (by omega)

theorem construct_keylen_val (z : Fin 33) (P : List Byte) (s : State) (h : P.length ≤ 32) :
    (s.construct z P).keylen.val = P.length := by simp; omega

/-- A constructed engine is in the post-construction state (R24). -/
theorem construct_spec (z : Fin 33) (P : List Byte) (s : State) (h : P.length ≤ 32) :
    (s.construct z P).PostConstruction z.val P := by
  have hk : (s.configure z P).keylen.val = P.length := by simp; omega
  refine ⟨?_, ?_, ?_, ?_, ?_, ?_, ?_, ?_, ?_⟩
  · have : (s.construct z P).h = (s.configure z P).seed.h := rfl
    simp only [this, seed_h, hk, parameterWord_eq, State.configure_size]; rfl
  · intro i hi
    have h0 : i.val ≠ 0 := fun h => hi (Fin.ext h)
    have : (s.construct z P).h = (s.configure z P).seed.h := rfl
    simp [this, seed_h, Ne.symm h0]
  · simp
  · intro i
    have : (s.construct z P).block = (s.configure z P).seed.block := rfl
    simp only [this, Fin.getElem_fin]
    by_cases hP : P = []
    · simp only [seed_block_unkeyed _ (show (s.configure z P).keylen.val = 0 by rw [hk, hP]; rfl)]
      simp [hP]
    · have h0 : 0 < P.length := List.length_pos_iff.mpr hP
      rw [seed_block_keyed _ (by rw [hk]; exact h0)]
      split
      · simp [padded_get]
      · rename_i h'
        simp [List.getD_eq_getElem?_getD, List.getElem?_eq_none (show P.length ≤ i.val by omega)]
  · have : (s.construct z P).offset = (s.configure z P).seed.offset := rfl
    simp only [this, seed_offset, hk, List.length_eq_zero_iff]
    split <;> rfl
  · simp
  · exact construct_keylen_val z P s h
  · intro i; simp [padded_get]
  · simp

theorem constructChecked_eq (z : Fin 33) (P : List Byte) (s : State) (h : P.length ≤ 32) :
    constructChecked z P s = .next ((s.construct z P).respond .ok []) := by
  simp [constructChecked, Nat.not_lt.mpr h, succeed]

theorem constructChecked_long (z : Fin 33) (P : List Byte) (s : State) (h : 32 < P.length) :
    constructChecked z P s = .next (s.respond .invalidKeySize []) := by
  simp [constructChecked, h, raise]

theorem execInit_eq (z : Byte) (P : List Byte) (s : State) (h : 1 ≤ z.toNat ∧ z.toNat ≤ 32) :
    execInit z P s = constructChecked ⟨z.toNat, Nat.lt_succ_of_le h.2⟩ P s := by simp [execInit, h]

/-! ### SUM (R106) -/

/-- The digest SUM reads out of its copies. -/
def sumDigest (s : State) : List Byte :=
  digestBytes
    (compress1 0xFFFFFFFF#32 { h := s.h, c := counterCorrect s.c (64 - s.offset.val) } (padded 64 s.buffered)).h
    s.size.val

theorem sumDigest_length (s : State) : (sumDigest s).length = s.size.val := by
  have h := s.size.isLt
  have h1 : ∀ l : List Word, (l.flatMap le32).length = 4 * l.length := by
    intro l; induction l with
    | nil => rfl
    | cons a l ih => simp [le32, ih]; omega
  simp only [sumDigest, digestBytes, List.length_take, h1, Vector.length_toList]; omega

theorem execSum_eq (s : State) (h : s.constructed = true) :
    execSum s = .next (s.closeShadow.respond .ok (sumDigest s)) := by
  simp only [execSum, whenConstructed, h, if_true, succeed]; rfl

/-! ### The two ways a command ends -/

/-- A command ends with an error status and no other change, or with status OK and a payload of at most 109 bytes; its
ports are not its own to change. -/
def CommandEnds (s : State) (o : Host.Outcome State Fault Refusal) : Prop :=
  (∃ E, E ≠ .ok ∧ o = .next (s.respond E [])) ∨
  ∃ (u : State) (Q : List Byte), o = .next (u.respond .ok Q) ∧ Q.length ≤ 109 ∧
    u.outbox = s.outbox ∧ u.inbox = s.inbox ∧ u.inside = s.inside

theorem raise_ends {E : Status} (s : State) (h : E ≠ .ok) : CommandEnds s (raise E s) := .inl ⟨E, h, rfl⟩

theorem constructChecked_ends (z : Fin 33) (P : List Byte) (s : State) : CommandEnds s (constructChecked z P s) := by
  unfold constructChecked
  split
  · exact raise_ends s (by decide)
  · exact .inr ⟨_, _, rfl, by simp, by simp, by simp, by simp⟩

theorem record_length (s : State) : s.record.length = 109 := by
  have h1 : ∀ l : List Word, (l.flatMap be32).length = 4 * l.length := by
    intro l; induction l with
    | nil => rfl
    | cons a l ih => simp [be32, ih]; omega
  simp only [State.record, List.length_append, h1, Vector.length_toList, magic, List.length_cons, List.length_nil]

theorem exec_command_ends (i : Instr) (s : State) (h : i.isCommand = true) : CommandEnds s (exec i s) := by
  cases i with
  | init z P =>
    simp only [exec, execInit]
    split
    · exact constructChecked_ends _ _ s
    · exact raise_ends s (by decide)
  | init128 P =>
    simp only [exec, execInit128]
    split
    · exact raise_ends s (by decide)
    · exact constructChecked_ends _ _ s
  | init256 P => exact constructChecked_ends _ _ s
  | write P =>
    simp only [exec, execWrite, whenConstructed]
    split
    · exact .inr ⟨_, _, rfl, by simp, by simp, by simp, by simp⟩
    · exact raise_ends s (by decide)
  | sum =>
    by_cases hc : s.constructed = true
    · rw [exec, execSum_eq s hc]
      have hl := sumDigest_length s
      have hs := s.size.isLt
      exact .inr ⟨_, _, rfl, by omega, by simp, by simp, by simp⟩
    · simp only [exec, execSum, whenConstructed, hc]; exact raise_ends s (by decide)
  | reset =>
    simp only [exec, execReset, whenConstructed]
    split
    · exact .inr ⟨_, _, rfl, by simp, by simp, by simp, by simp⟩
    · exact raise_ends s (by decide)
  | marshal =>
    simp only [exec, execMarshal, whenConstructed]
    split
    · split
      · exact raise_ends s (by decide)
      · exact .inr ⟨_, _, rfl, by simp [record_length], by simp, by simp, by simp⟩
    · exact raise_ends s (by decide)
  | unmarshal P =>
    simp only [exec, execUnmarshal]
    split
    · exact raise_ends s (by decide)
    · split
      · exact raise_ends s (by decide)
      · split
        · exact .inr ⟨_, _, rfl, by simp, by simp, by simp, by simp⟩
        · exact raise_ends s (by decide)
  | compress fin h ctr data => simp [Instr.isCommand] at h
  | g r k => simp [Instr.isCommand] at h
  | reserved0 r z P => exact raise_ends s (by decide)
  | reserved9 r z P => exact raise_ends s (by decide)
  | reservedA r z P => exact raise_ends s (by decide)
  | reservedB r z P => exact raise_ends s (by decide)
  | reservedC r z P => exact raise_ends s (by decide)
  | reservedD r z P => exact raise_ends s (by decide)
  | reservedE r z P => exact raise_ends s (by decide)
  | reservedF r z P => exact raise_ends s (by decide)

end Sys2Proof.Machine
end

