-- ==== Sys2Proof/Laws/PerInstr.lean ====
section
/-! SUPPORT. One statement per instruction: the words it encodes to match its row of the opcode table. -/

namespace Sys2Proof.Laws

/-- W has the fixed bits of a table row: under the row's mask it is the row's match. -/
def fits (mask pattern W : Word) : Prop := W &&& mask = pattern

/-- The words are of format C and have the row's fixed bits. -/
def commandFits (mask pattern : Word) : Words → Prop
  | .port (.command W P) => fits mask pattern W ∧ P.length = W.toNat / 65536
  | _ => False

/-- The words are of format K and have the row's fixed bits. -/
def coreFits (mask pattern : Word) : Words → Prop
  | .port (.core K _ _ data) => fits mask pattern K ∧ data.length = 64 * (K.toNat / 65536)
  | _ => False

/-- The words are of format U and its round is 0 .. 9. -/
def microFits : Words → Prop
  | .micro U => U.toNat < 80
  | _ => False

/-- The instruction's words match its row of spec/opcode_table.json: mask and match, and the payload length that the
word announces. -/
def RowBits.Statement (i : Instr) : Prop :=
  i.wellFormed = true →
  match i with
  | .init _ _ => commandFits 0x000000FF#32 0x00000001#32 (encode i)
  | .init128 _ => commandFits 0x0000FFFF#32 0x00000002#32 (encode i)
  | .init256 _ => commandFits 0x0000FFFF#32 0x00000003#32 (encode i)
  | .write _ => commandFits 0x0000FFFF#32 0x00000004#32 (encode i)
  | .sum => commandFits 0xFFFFFFFF#32 0x00000005#32 (encode i)
  | .reset => commandFits 0xFFFFFFFF#32 0x00000006#32 (encode i)
  | .marshal => commandFits 0xFFFFFFFF#32 0x00000007#32 (encode i)
  | .unmarshal _ => commandFits 0x0000FFFF#32 0x00000008#32 (encode i)
  | .compress _ _ _ _ => coreFits 0x0000FFFE#32 0x00000000#32 (encode i)
  | .g _ _ => microFits (encode i)
  | .reserved0 _ _ _ => commandFits 0x0000000F#32 0x00000000#32 (encode i)
  | .reserved9 _ _ _ => commandFits 0x0000000F#32 0x00000009#32 (encode i)
  | .reservedA _ _ _ => commandFits 0x0000000F#32 0x0000000A#32 (encode i)
  | .reservedB _ _ _ => commandFits 0x0000000F#32 0x0000000B#32 (encode i)
  | .reservedC _ _ _ => commandFits 0x0000000F#32 0x0000000C#32 (encode i)
  | .reservedD _ _ _ => commandFits 0x0000000F#32 0x0000000D#32 (encode i)
  | .reservedE _ _ _ => commandFits 0x0000000F#32 0x0000000E#32 (encode i)
  | .reservedF _ _ _ => commandFits 0x0000000F#32 0x0000000F#32 (encode i)

theorem and_low16 (W : Word) : W &&& 0x0000FFFF#32 = BitVec.ofNat 32 (W.toNat % 65536) := by
  apply BitVec.eq_of_toNat_eq
  rw [BitVec.toNat_and, show (0x0000FFFF#32).toNat = 2 ^ 16 - 1 from rfl, Nat.and_two_pow_sub_one_eq_mod,
    BitVec.toNat_ofNat]
  omega

/-- Masks of the low half see the low half only. -/
theorem and_low (W mask : Word) (h : 0x0000FFFF#32 &&& mask = mask) :
    W &&& mask = BitVec.ofNat 32 (W.toNat % 65536) &&& mask := by
  rw [← and_low16, BitVec.and_assoc, h]

/-- A command whose payload fits LEN has its row's fixed bits if they are those of its opcode, RSV and OUTSIZE. -/
theorem commandFits_header {mask pattern : Word} {op rsv : BitVec 4} {z : Byte} {P : List Byte}
    (hP : payloadFits P = true) (hm : 0x0000FFFF#32 &&& mask = mask)
    (h : BitVec.ofNat 32 (op.toNat + 16 * rsv.toNat + 256 * z.toNat) &&& mask = pattern) :
    commandFits mask pattern (commandWords op rsv z P) := by
  rw [payloadFits_iff] at hP
  have e := headerWord_toNat op rsv z P.length hP
  have h1 := op.isLt
  have h2 := rsv.isLt
  have h3 := z.isLt
  refine ⟨?_, by rw [e]; omega⟩
  rw [fits, and_low _ _ hm, e, ← h]
  congr 2
  omega

theorem reservedBits (op rsv : BitVec 4) (z : Byte) :
    BitVec.ofNat 32 (op.toNat + 16 * rsv.toNat + 256 * z.toNat) &&& 0x0000000F#32 = op.setWidth 32 := by
  have h1 := op.isLt
  have h2 := rsv.isLt
  have h3 := z.isLt
  apply BitVec.eq_of_toNat_eq
  rw [BitVec.toNat_and, show (0x0000000F#32).toNat = 2 ^ 4 - 1 from rfl, Nat.and_two_pow_sub_one_eq_mod,
    BitVec.toNat_ofNat, BitVec.toNat_setWidth]
  omega

theorem initBits (z : Byte) :
    BitVec.ofNat 32 ((1#4).toNat + 16 * (0#4).toNat + 256 * z.toNat) &&& 0x000000FF#32 = 0x00000001#32 := by
  have h3 := z.isLt
  apply BitVec.eq_of_toNat_eq
  rw [BitVec.toNat_and, show (0x000000FF#32).toNat = 2 ^ 8 - 1 from rfl, Nat.and_two_pow_sub_one_eq_mod,
    BitVec.toNat_ofNat]
  simp

theorem RowBits.init (outsize : Byte) (key : List Byte) : RowBits.Statement (.init outsize key) :=
  fun h => commandFits_header h (by decide) (initBits outsize)

theorem RowBits.init128 (key : List Byte) : RowBits.Statement (.init128 key) :=
  fun h => commandFits_header h (by decide) (by decide)

theorem RowBits.init256 (key : List Byte) : RowBits.Statement (.init256 key) :=
  fun h => commandFits_header h (by decide) (by decide)

theorem RowBits.write (bytes : List Byte) : RowBits.Statement (.write bytes) :=
  fun h => commandFits_header h (by decide) (by decide)

theorem RowBits.sum : RowBits.Statement (.sum) :=
  fun _ => ⟨by unfold fits; decide, by decide⟩

theorem RowBits.reset : RowBits.Statement (.reset) :=
  fun _ => ⟨by unfold fits; decide, by decide⟩

theorem RowBits.marshal : RowBits.Statement (.marshal) :=
  fun _ => ⟨by unfold fits; decide, by decide⟩

theorem RowBits.unmarshal (record : List Byte) : RowBits.Statement (.unmarshal record) :=
  fun h => commandFits_header h (by decide) (by decide)

theorem RowBits.compress (fin : Bool) (hIn : Vector Word 8) (cIn : Vector Word 2) (data : List Byte) :
    RowBits.Statement (.compress fin hIn cIn data) := by
  intro h
  have h' : dataFits data = true := h
  rw [dataFits_iff] at h'
  have e := coreWord_toNat fin (data.length / 64) h'.2.2
  refine ⟨?_, by rw [e]; split <;> omega⟩
  rw [fits, and_low _ _ (by decide), e]
  cases fin <;> simp

theorem RowBits.g (round : Fin 10) (slot : Fin 8) : RowBits.Statement (.g round slot) := by
  intro _
  show (microWord round slot).toNat < 80
  rw [microWord_toNat]
  omega

theorem RowBits.reserved0 (rsv : BitVec 4) (outsize : Byte) (payload : List Byte) :
    RowBits.Statement (.reserved0 rsv outsize payload) :=
  fun h => commandFits_header h (by decide) (reservedBits _ _ _)

theorem RowBits.reserved9 (rsv : BitVec 4) (outsize : Byte) (payload : List Byte) :
    RowBits.Statement (.reserved9 rsv outsize payload) :=
  fun h => commandFits_header h (by decide) (reservedBits _ _ _)

theorem RowBits.reservedA (rsv : BitVec 4) (outsize : Byte) (payload : List Byte) :
    RowBits.Statement (.reservedA rsv outsize payload) :=
  fun h => commandFits_header h (by decide) (reservedBits _ _ _)

theorem RowBits.reservedB (rsv : BitVec 4) (outsize : Byte) (payload : List Byte) :
    RowBits.Statement (.reservedB rsv outsize payload) :=
  fun h => commandFits_header h (by decide) (reservedBits _ _ _)

theorem RowBits.reservedC (rsv : BitVec 4) (outsize : Byte) (payload : List Byte) :
    RowBits.Statement (.reservedC rsv outsize payload) :=
  fun h => commandFits_header h (by decide) (reservedBits _ _ _)

theorem RowBits.reservedD (rsv : BitVec 4) (outsize : Byte) (payload : List Byte) :
    RowBits.Statement (.reservedD rsv outsize payload) :=
  fun h => commandFits_header h (by decide) (reservedBits _ _ _)

theorem RowBits.reservedE (rsv : BitVec 4) (outsize : Byte) (payload : List Byte) :
    RowBits.Statement (.reservedE rsv outsize payload) :=
  fun h => commandFits_header h (by decide) (reservedBits _ _ _)

theorem RowBits.reservedF (rsv : BitVec 4) (outsize : Byte) (payload : List Byte) :
    RowBits.Statement (.reservedF rsv outsize payload) :=
  fun h => commandFits_header h (by decide) (reservedBits _ _ _)

end Sys2Proof.Laws
end

