-- ==== Sys2Proof/Laws/Step.lean ====
section
/-! SUPPORT. What a step can do, said once. -/

namespace Sys2Proof.Machine

/-- The four cases of a step that answers a next state: a power-on reset, a micro-operation and the sequencer's
advance, a request (executed, or illegal), or waiting. -/
theorem step_cases {s t : State} (h : step s = .next t) :
    (∃ rest, s.inbox = .powerOn :: rest ∧ t = State.powerOn { s with inbox := rest }) ∨
    (∃ run i u, s.inside = some run ∧ decodeMicro run.u = .ok i ∧ exec i s = .next u ∧ t = u.advanceSequencer) ∨
    (∃ q rest, s.inside = none ∧ s.inbox = .request q :: rest ∧
      ((∃ i, decodeRequest q = .ok i ∧ exec i { s with inbox := rest } = .next t) ∨
       (∃ why, decodeRequest q = .error (.illegal why) ∧
          t = State.respond .illegalCommand [] { s with inbox := rest }))) ∨
    (s.inside = none ∧ s.inbox = [] ∧ t = s) := by
  unfold step at h
  split at h
  · rename_i _ rest hq
    exact .inl ⟨rest, hq, (Host.Outcome.next.inj h).symm⟩
  · rename_i run hr _
    refine .inr (.inl ?_)
    unfold runMicro at h
    split at h
    · rename_i i hi
      split at h
      · rename_i u hu
        exact ⟨run, i, u, hr, hi, hu, (Host.Outcome.next.inj h).symm⟩
      · cases h
      · cases h
    · cases h
  · rename_i q rest hq hr
    refine .inr (.inr (.inl ⟨q, rest, hr, hq, ?_⟩))
    unfold runRequest at h
    split at h
    · exact .inl ⟨_, ‹_›, h⟩
    · exact .inr ⟨_, ‹_›, (Host.Outcome.next.inj h).symm⟩
    · cases h
  · rename_i hq hr
    exact .inr (.inr (.inr ⟨hr, hq, (Host.Outcome.next.inj h).symm⟩))

theorem step_powerOn {s : State} {rest : List Input} (h : s.inbox = .powerOn :: rest) :
    step s = .next (State.powerOn { s with inbox := rest }) := by
  unfold step; split <;> simp_all

theorem step_micro {s : State} {run : CoreRun} (h : s.inside = some run) (hq : ∀ rest, s.inbox ≠ .powerOn :: rest) :
    step s = runMicro run.u s := by
  unfold step; split <;> simp_all

theorem step_request {s : State} {q : Request} {rest : List Input} (h : s.inside = none)
    (hq : s.inbox = .request q :: rest) : step s = runRequest q { s with inbox := rest } := by
  unfold step; split <;> simp_all

theorem step_idle {s : State} (h : s.inside = none) (hq : s.inbox = []) : step s = .next s := by
  unfold step; split <;> simp_all

/-- G on a compression in progress (R83). -/
theorem execG_eq {s : State} {run : CoreRun} (r : Fin 10) (k : Fin 8) (h : s.inside = some run) :
    execG r k s = .next { s with inside := some { run with v := gStep run.m r k run.v } } := by
  simp [execG, h]

theorem decodeMicro_eq (r : Fin 10) (k : Fin 8) : decodeMicro (microWord r k) = .ok (.g r k) := by
  have h := microWord_toNat r k
  have hr : (roundField (microWord r k)).toNat = r.val := by rw [roundField_toNat, h]; omega
  have hk : (slotField (microWord r k)).toNat = k.val := by rw [slotField_toNat, h]; omega
  simp [decodeMicro, hr, hk]

end Sys2Proof.Machine
end

