-- ==== Sys2Proof/Tests/Slice0.lean ====
section
/-! SUPPORT. Tests and witnesses. Expected values are the spec's own: the encodings of 30_encoding.md, the worked
examples of 40_compression_core.md and 41_streaming_digest.md, the vectors V<n> and programs P<n> of
95_test_vectors.md. -/

namespace Sys2Proof.Tests

open Sys2Proof.Machine

set_option Elab.async false

/-! ### Helpers -/

/-- A byte string written in hexadecimal. -/
def hex (t : String) : List Byte := (hexBytes t.toList).getD []

/-- The message 00 01 .. of n bytes (95_test_vectors.md section 2.5). -/
def count (n : Nat) : List Byte := (List.range n).map (BitVec.ofNat 8)

/-- The state an outcome gives, or an empty engine. -/
def after : Host.Outcome State Fault Refusal → State
  | .next t => t
  | _ => State.reset

/-- The engine after a command. -/
def run (s : State) (i : Instr) : State := after (exec i s)

/-- The last response. -/
def answer (s : State) : Option Response := s.outbox.getLast?

/-- `INIT 32` on an engine after power-on. -/
def unkeyed : State := run State.reset (.init 32 [])

/-- `INIT256 key=000102..1F` on an engine after power-on (P4). -/
def keyed : State := run State.reset (.init256 (count 32))

/-- The words "abc". -/
def abc : List Byte := [0x61#8, 0x62#8, 0x63#8]

/-- An engine with a compression of n zero blocks in progress, at micro-operation u. -/
def compressing (n : Nat) (u : BitVec 7) : State :=
  { State.reset with inside := some { CoreRun.start true { h := iv, c := #v[0, 0] } (zeros (64 * n)) with u := u } }

/-- The record of P7 with these size and offset bytes. -/
def recordWith (z o : Byte) : List Byte :=
  hex "6232736b08e647bb67ae853c6ef372a54ff53a510e527f9b05688c1f83d9ab5be0cd19ffffffc000000000" ++ [z] ++ count 64 ++ [o]

/-! ### Well-formedness: one ill-formed term for each check -/

theorem test_payload_of_65535_bytes_fits (p : List Byte) (h : p.length = 65535) :
    (Instr.write p).wellFormed = true := by
  simp [Instr.wellFormed, payloadFits, Config.lenMax, h]

theorem test_payload_of_65536_bytes_is_ill_formed (p : List Byte) (h : p.length = 65536) :
    (Instr.init 32 p).wellFormed = false ∧ (Instr.init128 p).wellFormed = false ∧
      (Instr.init256 p).wellFormed = false ∧ (Instr.write p).wellFormed = false ∧
      (Instr.unmarshal p).wellFormed = false ∧ (Instr.reserved0 0 0 p).wellFormed = false ∧
      (Instr.reserved9 0 0 p).wellFormed = false ∧ (Instr.reservedA 0 0 p).wellFormed = false ∧
      (Instr.reservedB 0 0 p).wellFormed = false ∧ (Instr.reservedC 0 0 p).wellFormed = false ∧
      (Instr.reservedD 0 0 p).wellFormed = false ∧ (Instr.reservedE 0 0 p).wellFormed = false ∧
      (Instr.reservedF 0 0 p).wellFormed = false := by
  simp [Instr.wellFormed, payloadFits, Config.lenMax, h]

theorem test_no_block_is_ill_formed : (Instr.compress true iv #v[0, 0] []).wellFormed = false := by decide

theorem test_part_of_a_block_is_ill_formed : (Instr.compress true iv #v[0, 0] (zeros 63)).wellFormed = false := by
  decide

theorem test_65536_blocks_are_ill_formed (p : List Byte) (h : p.length = 64 * 65536) :
    (Instr.compress true iv #v[0, 0] p).wellFormed = false := by
  simp [Instr.wellFormed, dataFits, Config.blocksMax, h]

/-! ### Decoding: a word for every constructor, written from 30_encoding.md rules R50, R51, R54, R57, R59 -/

/-- R50: LEN = 2, OUTSIZE = 20, RSV = 0, OP = 1. -/
theorem test_decode_init :
    decode (.port (.command 0b0000000000000010_00010100_0000_0001#32 [1, 2])) = .ok (.init 20 [1, 2]) := by decide +kernel

/-- `INIT128 key=AA` (section 2.9). -/
theorem test_decode_init128 :
    decode (.port (.command 0b0000000000000001_00000000_0000_0010#32 [0xAA])) = .ok (.init128 [0xAA]) := by decide +kernel

/-- `INIT256 key=` 32 bytes (section 2.9). -/
theorem test_decode_init256 : decode (.port (.command 0x00200003#32 (count 32))) = .ok (.init256 (count 32)) := by
  decide +kernel

/-- `WRITE "abc"` (P2). -/
theorem test_decode_write : decode (.port (.command 0x00030004#32 abc)) = .ok (.write abc) := by decide +kernel

theorem test_decode_sum : decode (.port (.command 0x00000005#32 [])) = .ok .sum := by decide +kernel

theorem test_decode_reset : decode (.port (.command 0x00000006#32 [])) = .ok .reset := by decide +kernel

theorem test_decode_marshal : decode (.port (.command 0x00000007#32 [])) = .ok .marshal := by decide +kernel

/-- `UNMARSHAL 623273` (P6). -/
theorem test_decode_unmarshal :
    decode (.port (.command 0x00030008#32 [0x62, 0x32, 0x73])) = .ok (.unmarshal [0x62, 0x32, 0x73]) := by decide +kernel

/-- R57: NBLK = 2, FIN = 0. -/
theorem test_decode_compress :
    decode (.port (.core 0b0000000000000010_000000000000000_0#32 iv #v[3, 4] (zeros 128))) =
      .ok (.compress false iv #v[3, 4] (zeros 128)) := by decide +kernel

/-- R59: RND = 9, S = 7 is U = 79; RND = 2, S = 5 is U = 21. -/
theorem test_decode_g :
    decode (.micro 0b1001_111#7) = .ok (.g 9 7) ∧ decode (.micro 21#7) = .ok (.g 2 5) := by decide +kernel

theorem test_decode_reserved0 : decode (.port (.command 0x000000F0#32 [])) = .ok (.reserved0 15 0 []) := by decide +kernel
theorem test_decode_reserved9 : decode (.port (.command 0x00010009#32 [5])) = .ok (.reserved9 0 0 [5]) := by decide +kernel
theorem test_decode_reservedA : decode (.port (.command 0x0000010A#32 [])) = .ok (.reservedA 0 1 []) := by decide +kernel
theorem test_decode_reservedB : decode (.port (.command 0x0000002B#32 [])) = .ok (.reservedB 2 0 []) := by decide +kernel
theorem test_decode_reservedC : decode (.port (.command 0x0000030C#32 [])) = .ok (.reservedC 0 3 []) := by decide +kernel
theorem test_decode_reservedD : decode (.port (.command 0x0000004D#32 [])) = .ok (.reservedD 4 0 []) := by decide +kernel
theorem test_decode_reservedE : decode (.port (.command 0x0000050E#32 [])) = .ok (.reservedE 0 5 []) := by decide +kernel
theorem test_decode_reservedF : decode (.port (.command 0x0000FFFF#32 [])) = .ok (.reservedF 15 255 []) := by decide +kernel

/-- R63, in its order: RSV, then OUTSIZE, then LEN. -/
theorem test_decode_rejects_illegal_words :
    decode (.port (.command 0x00000015#32 [])) = .error (.illegal .reservedBits) ∧
    decode (.port (.command 0x00002003#32 [])) = .error (.illegal .outsizeNotZero) ∧
    decode (.port (.command 0x00010005#32 [0])) = .error (.illegal .payloadNotEmpty) ∧
    decode (.port (.command 0x00010105#32 [0])) = .error (.illegal .outsizeNotZero) := by decide +kernel

/-- R50, R57, R59: what is no request or micro-operation at all. -/
theorem test_decode_refuses :
    decode (.port (.command 0x00010004#32 [])) = .error .payloadLength ∧
    decode (.port (.core 0x00010002#32 iv #v[0, 0] (zeros 64))) = .error .coreReservedBits ∧
    decode (.port (.core 0x00000001#32 iv #v[0, 0] [])) = .error .coreNoBlock ∧
    decode (.port (.core 0x00010001#32 iv #v[0, 0] (zeros 65))) = .error .coreDataLength ∧
    decode (.micro 80#7) = .error .microRound := by decide +kernel

/-- The table's rows as the host numbers them, operands zero. -/
theorem test_table_words :
    decodeTableWord 32 0x00000001 = some (.init 0 []) ∧ decodeTableWord 32 0x00030004 = some (.write (zeros 3)) ∧
    decodeTableWord 32 0x00010000 = some (.compress false (Vector.replicate 8 0) (Vector.replicate 2 0) (zeros 64)) ∧
    decodeTableWord 8 79 = some (.g 9 7) ∧ decodeTableWord 32 0 = some (.reserved0 0 0 []) := by decide +kernel

/-- The word placed for the fetch is the next step's instruction. -/
theorem test_fetch_word_runs :
    after (step (State.reset.withFetchWord 32 0x00002001)) = run State.reset (.init 32 []) ∧
    after (step (State.reset.withFetchWord 32 5)) = run State.reset .sum ∧
    (after (step (State.reset.withFetchWord 8 79))).outbox.length = 1 := by decide +kernel

/-! ### The meanings, one step each -/

/-- R101, worked example. -/
theorem test_init_32 :
    unkeyed.h = #v[0x6B08E647#32, 0xBB67AE85#32, 0x3C6EF372#32, 0xA54FF53A#32, 0x510E527F#32, 0x9B05688C#32,
      0x1F83D9AB#32, 0x5BE0CD19#32] ∧ unkeyed.c = #v[0, 0] ∧ unkeyed.offset = 0 ∧
    unkeyed.block.toList = zeros 64 ∧ unkeyed.size = 32 ∧ unkeyed.keylen = 0 ∧
    answer unkeyed = some (.command 0 []) := by decide +kernel

/-- P6: `.word 00002101`, INIT with OUTSIZE 33. -/
theorem test_init_33_is_illegal : answer (run State.reset (.init 33 [])) = some (.command 6 []) := by decide +kernel

/-- P6: `INIT128 key=AA`. -/
theorem test_init128 :
    (run State.reset (.init128 [0xAA])).h[0] = 0x6B08E777#32 ∧ (run State.reset (.init128 [0xAA])).offset = 64 ∧
    (run State.reset (.init128 [0xAA])).block.toList = 0xAA#8 :: zeros 63 := by decide +kernel

/-- R102, worked example. -/
theorem test_init128_needs_a_key : run State.reset (.init128 []) =
    { State.reset with outbox := [.command 2 []] } := by decide +kernel

/-- P4. -/
theorem test_init256_keyed :
    keyed.h[0] = 0x6B08C647#32 ∧ keyed.offset = 64 ∧ keyed.block.toList = count 32 ++ zeros 32 ∧
    keyed.size = 32 ∧ keyed.keylen = 32 ∧ keyed.key.toList = count 32 := by decide +kernel

theorem test_init256_long_key : answer (run keyed (.init256 (zeros 33))) = some (.command 1 []) := by decide +kernel

/-- R104, worked example: 65 bytes, one block compressed, one byte kept. -/
theorem test_write_65_bytes :
    (run unkeyed (.write (count 65))).c = #v[64, 0] ∧ (run unkeyed (.write (count 65))).offset = 1 ∧
    (run unkeyed (.write (count 65))).block[0] = 0x40#8 := by decide +kernel

/-- P3: the held-back block is compressed when one more byte comes. -/
theorem test_write_after_a_held_block :
    (run (run unkeyed (.write (count 64))) (.write [0x40])).h =
      #v[0x69B86EDC#32, 0x9C74BB75#32, 0x25BD102E#32, 0x83F24029#32, 0x9A9D32C1#32, 0xA02250BB#32, 0x3AA0A774#32,
        0xE4B93E1D#32] ∧
    (run (run unkeyed (.write (count 64))) (.write [0x40])).block.toList = 0x40#8 :: (count 64).drop 1 := by
  decide +kernel

/-- V1. -/
theorem test_sum_of_nothing : answer (run unkeyed .sum) = some (.command 0x00200000
    (hex "69217a3079908094e11121d042354a7c1f55b6482ca1a51e1b250dfd1ed0eef9")) := by decide +kernel

/-- V20, V3. -/
theorem test_sum_of_abc : answer (run (run unkeyed (.write abc)) .sum) = some (.command 0x00200000
    (hex "508c5e8c327c14e2e1a72ba34eeb452f37458b209ed63a294d999b4c86675982")) := by decide +kernel

/-- P4: as after the INIT256. -/
theorem test_reset_of_a_keyed_digest :
    { run (run keyed (.write [0])) .reset with outbox := keyed.outbox } = keyed := by decide +kernel

/-- R108: an unkeyed engine keeps its stale bytes. -/
theorem test_reset_keeps_stale_bytes :
    (run (run unkeyed (.write abc)) .reset).block[2] = 0x63#8 ∧ (run (run unkeyed (.write abc)) .reset).offset = 0 := by
  decide +kernel

/-- V40. -/
theorem test_marshal : answer (run unkeyed .marshal) = some (.command 0x006D0000
    (hex "6232736b08e647bb67ae853c6ef372a54ff53a510e527f9b05688c1f83d9ab5be0cd19000000000000000020" ++ zeros 65)) := by
  decide +kernel

/-- P4. -/
theorem test_marshal_of_a_keyed_digest : answer (run keyed .marshal) = some (.command 3 []) := by decide +kernel

/-- P7: the record R7, then SUM. -/
theorem test_unmarshal :
    (run keyed (.unmarshal (recordWith 32 64))).c = #v[0xFFFFFFC0#32, 0] ∧
    (run keyed (.unmarshal (recordWith 32 64))).keylen = 0 ∧
    answer (run (run keyed (.unmarshal (recordWith 32 64))) .sum) = some (.command 0x00200000
      (hex "e58b9231b19fdf04419c98fe4ec9994fe021d700c7bd1fdbaa0cfa08b6ecdf04")) := by decide +kernel

/-- P6: identifier before size, size before fields. -/
theorem test_unmarshal_errors :
    answer (run State.reset (.unmarshal [0x62, 0x32])) = some (.command 4 []) ∧
    answer (run State.reset (.unmarshal [0x62, 0x32, 0x73])) = some (.command 5 []) ∧
    answer (run State.reset (.unmarshal (recordWith 0 64))) = some (.command 8 []) ∧
    answer (run State.reset (.unmarshal (recordWith 32 65))) = some (.command 8 []) := by decide +kernel

/-- R91, worked example; V20. -/
theorem test_compress :
    answer (run State.reset (.compress true (iv.set 0 0x6B08E647#32) #v[0xFFFFFFC3#32, 0xFFFFFFFF#32]
        (abc ++ zeros 61))) =
      some (.core #v[0x8C5E8C50#32, 0xE2147C32#32, 0xA32BA7E1#32, 0x2F45EB4E#32, 0x208B4537#32, 0x293AD69E#32,
        0x4C9B994D#32, 0x82596786#32] #v[3, 0]) := by decide +kernel

/-- V20: v after slot 0 of round 0. -/
theorem test_g :
    ((run { State.reset with inside := some (CoreRun.start true
        { h := iv.set 0 0x6B08E647#32, c := #v[0xFFFFFFC3#32, 0xFFFFFFFF#32] } (abc ++ zeros 61)) } (.g 0 0)).inside.map
      fun r => r.v.toList) =
      some [0xD6C0C1DF#32, 0xBB67AE85#32, 0x3C6EF372#32, 0xA54FF53A#32, 0x7F898693#32, 0x9B05688C#32, 0x1F83D9AB#32,
        0x5BE0CD19#32, 0xDE856F07#32, 0xBB67AE85#32, 0x3C6EF372#32, 0xA54FF53A#32, 0xAB1F9B2C#32, 0x9B05688C#32,
        0xE07C2654#32, 0x5BE0CD19#32] := by decide +kernel

/-- V11, V14: every addition overflows; y enters at line 5. -/
theorem test_g_words :
    gWords 0xFFFFFFFF 0xFFFFFFFF 0xFFFFFFFF 0xFFFFFFFF 0xFFFFFFFF 0xFFFFFFFF =
      (0x000FFFDC#32, 0x3DB81BE4#32, 0xDC020DFE#32, 0xDC000DFF#32) ∧
    gWords 0 0 0 0 0 1 = (0x00000001#32, 0x00020000#32, 0x01000000#32, 0x01000000#32) := by decide +kernel

theorem test_reserved0 : answer (run keyed (.reserved0 0 0 [])) = some (.command 6 []) := by decide +kernel
theorem test_reserved9 : answer (run keyed (.reserved9 0 0 [])) = some (.command 6 []) := by decide +kernel
theorem test_reservedA : answer (run keyed (.reservedA 0 0 [])) = some (.command 6 []) := by decide +kernel
theorem test_reservedB : answer (run keyed (.reservedB 0 0 [])) = some (.command 6 []) := by decide +kernel
theorem test_reservedC : answer (run keyed (.reservedC 0 0 [])) = some (.command 6 []) := by decide +kernel
theorem test_reservedD : answer (run keyed (.reservedD 0 0 [])) = some (.command 6 []) := by decide +kernel
theorem test_reservedE : answer (run keyed (.reservedE 0 0 [])) = some (.command 6 []) := by decide +kernel
theorem test_reservedF : answer (run keyed (.reservedF 15 255 [1])) = some (.command 6 []) := by decide +kernel

/-- 95_test_vectors.md section 2.3: the advance, and SUM's correction. -/
theorem test_counter :
    counterAdvance #v[0xFFFFFFC0#32, 0] = #v[0, 1] ∧ counterAdvance #v[0xFFFFFFFF#32, 0] = #v[0x3F, 1] ∧
    counterAdvance #v[0xFFFFFFC0#32, 0xFFFFFFFF#32] = #v[0, 0] ∧
    counterCorrect #v[0, 0] 64 = #v[0xFFFFFFC0#32, 0xFFFFFFFF#32] ∧
    counterCorrect #v[0, 1] 63 = #v[0xFFFFFFC1#32, 0] ∧ counterCorrect #v[0x40, 0] 0 = #v[0x40, 0] := by decide +kernel

/-- Section 2.1. -/
theorem test_word_primitives :
    rotr32 0x12345678 16 = 0x56781234#32 ∧ rotr32 0x12345678 12 = 0x67812345#32 ∧
    rotr32 0x12345678 8 = 0x78123456#32 ∧ rotr32 0x12345678 7 = 0xF02468AC#32 ∧
    leword 0x61 0x62 0x63 0 = 0x00636261#32 ∧ le32 0x8C5E8C50 = [0x50#8, 0x8C#8, 0x5E#8, 0x8C#8] ∧
    be32 0x8C5E8C50 = [0x8C#8, 0x5E#8, 0x8C#8, 0x50#8] := by decide +kernel

/-- R81: every row is a permutation of 0 .. 15. -/
theorem test_sigma_rows : ∀ r : Fin 10, ∀ k : Fin 16, k ∈ sigma[r].toList := by decide +kernel

/-- V35: the one-pass hash of one byte with a 32-byte key. -/
theorem test_hash_of_keyed : hashOf 32 (count 32) (count 1) =
    hex "40d15fee7c328830166ac3f918650f807e7e01e177258cdc0a39b11f598066f1" := by decide +kernel

/-! ### The assembler syntax (R65, R66) -/

/-- P6 and P2 lines with their header words. -/
theorem test_assemble :
    assembleLine "INIT 32        ; construct".toList = some [.command 0x00002001 []] ∧
    assembleLine "INIT128 key=AA".toList = some [.command 0x00010002 [0xAA]] ∧
    assembleLine "WRITE \"abc\"".toList = some [.command 0x00030004 abc] ∧
    assembleLine "MARSHAL".toList = some [.command 0x00000007 []] ∧
    assembleLine ".word 00000015".toList = some [.command 0x00000015 []] ∧
    assembleLine "INIT 32 key=AA".toList = none := by decide +kernel

/-- R66. -/
theorem test_assemble_pseudo :
    assembleLine "MAC 32, 6B6579, \"abc\"".toList =
      some [.command 0x00032001 [0x6B, 0x65, 0x79], .command 0x00030004 abc, .command 0x00000005 []] ∧
    assembleLine "FEED 00, 0102".toList =
      some [.command 0x00010004 [0], .command 0x00020004 [1, 2]] := by decide +kernel

/-- R65; the size 1 digest of "abc" (section 2.5). -/
theorem test_response_text :
    responseText .ok [0x0d] = "-> OK, 0d".toList ∧ responseText .keyRequired [] = "-> KeyRequired".toList := by
  decide +kernel

/-! ### The hypotheses of the statements are met -/

theorem witness_DecodeEncodeAgree :
    (Instr.init 0 []).wellFormed = true ∧ (Instr.compress true iv #v[0, 0] (zeros 64)).wellFormed = true ∧
    (Instr.reservedF 15 255 [1]).wellFormed = true ∧ (Instr.g 9 7).wellFormed = true := by decide +kernel

theorem witness_EncodeDecodeAgree : decode (.port (.command 0x00002101#32 [])) = .ok (.init 33 []) := by decide +kernel

theorem witness_SerialCommandsAreReadBack :
    abc.length = (0x00030004#32 : Word).toNat / 65536 ∧ 6 < 4 + abc.length ∧
    serialise 0x00030004 abc = [4, 0, 3, 0, 0x61, 0x62, 0x63] := by decide +kernel

/-- An engine whose next input is this request. -/
def asked (q : Request) : State := { State.reset with inbox := [.request q] }

theorem witness_StepRunsTheDecodedRequest :
    (asked (.command 0x00002001 [])).inside = none ∧
    (asked (.command 0x00002001 [])).inbox = .request (.command 0x00002001 []) :: [] ∧
    decode (.port (.command 0x00002001 [])) = .ok (.init 32 []) := by decide +kernel

theorem witness_no_power_on (n : Nat) (u : BitVec 7) : ∀ rest, (compressing n u).inbox ≠ .powerOn :: rest := by
  intro rest h; cases h

/-- The three clauses: before the last micro-operation, at the last one with blocks left, and at the last of all. -/
theorem witness_StepRunsTheSequencersMicroOperation :
    (∃ run, (compressing 1 78).inside = some run ∧ decode (.micro run.u) = .ok (.g 9 6) ∧ run.u.toNat < 79) ∧
    (∃ run, (compressing 2 79).inside = some run ∧ decode (.micro run.u) = .ok (.g 9 7) ∧ run.u.toNat = 79 ∧
      64 ≤ run.rest.length) ∧
    (∃ run, (compressing 1 79).inside = some run ∧ decode (.micro run.u) = .ok (.g 9 7) ∧ run.u.toNat = 79 ∧
      run.rest.length < 64) :=
  ⟨⟨_, rfl, by decide +kernel⟩, ⟨_, rfl, by decide +kernel⟩, ⟨_, rfl, by decide +kernel⟩⟩

theorem witness_PowerOnForgetsTheDigest :
    State.reset.inbox = [] ∧ State.reset.inside = none ∧ { keyed with inbox := [.powerOn] }.inbox = .powerOn :: [] := by
  decide +kernel

theorem witness_WordsOutsideTheFormatsAreRefused :
    ([] : List Byte).length ≠ (0x00010004#32 : Word).toNat / 65536 ∧
    (0x00010002#32 : Word).toNat / 2 % 32768 ≠ 0 ∧ (0x00000001#32 : Word).toNat / 65536 = 0 ∧
    (zeros 65).length ≠ 64 * ((0x00010001#32 : Word).toNat / 65536) ∧
    (asked (.command 0x00010004 [])).inside = none ∧
    (∃ run, (compressing 1 80).inside = some run ∧ 80 ≤ run.u.toNat) :=
  ⟨by decide +kernel, by decide +kernel, by decide +kernel, by decide +kernel, rfl, _, rfl, by decide +kernel⟩

/-- Each kind of illegal header, and the legal headers at the same boundaries. -/
theorem witness_IllegalCommandsAreTheReservedEncodings :
    (∀ W ∈ [0x00000000#32, 0x00000009#32, 0x0000000F#32, 0x00000014#32, 0x00000108#32, 0x00000001#32, 0x00002101#32,
      0x00010005#32, 0x00010007#32], IllegalHeader W) ∧
    (∀ W ∈ [0x00000101#32, 0x00002001#32, 0x00000002#32, 0x00000005#32, 0x00010004#32, 0x00000008#32],
      ¬IllegalHeader W) := by
  simp [IllegalHeader]

theorem witness_InitConstructsADigest :
    ¬(1 ≤ (0 : Byte).toNat ∧ (0 : Byte).toNat ≤ 32) ∧ ¬(1 ≤ (33 : Byte).toNat ∧ (33 : Byte).toNat ≤ 32) ∧
    (1 ≤ (1 : Byte).toNat ∧ (1 : Byte).toNat ≤ 32 ∧ 32 < (zeros 33).length) ∧
    (1 ≤ (32 : Byte).toNat ∧ (32 : Byte).toNat ≤ 32 ∧ (zeros 32).length ≤ 32) := by decide +kernel

theorem witness_Init128RequiresAKey :
    32 < (zeros 33).length ∧ (1 ≤ (zeros 1).length ∧ (zeros 1).length ≤ 32) ∧
    (1 ≤ (zeros 32).length ∧ (zeros 32).length ≤ 32) := by decide +kernel

theorem witness_Init256IsInit32 : 32 < (zeros 33).length ∧ (zeros 32).length ≤ 32 ∧ (zeros 0).length ≤ 32 := by decide +kernel

theorem witness_CommandsNeedADigest : State.reset.constructed = false := rfl

/-- For the statements whose one hypothesis is a constructed digest, both keyed and not: WriteCompressesAllButTheLastBlock,
WriteBlockCount, WriteCountsEveryByteOnce, ChunkingInvariance, SumFinalisesACopy, DigestLengthIsTheOutputSize,
SumTwiceGivesTheSameDigest, ResetRestoresTheSeed, MarshalGivesTheRecord. -/
theorem witness_constructed :
    (unkeyed.constructed = true ∧ unkeyed.keylen.val = 0) ∧ (keyed.constructed = true ∧ 0 < keyed.keylen.val) := by
  decide +kernel

theorem witness_SumCountsTheBufferedBytes : 0 ≤ 64 ∧ 64 ≤ 64 := by decide +kernel

/-- Two digests that differ in a stale byte alone. -/
theorem witness_SumIgnoresStaleBytes :
    let s₁ := run unkeyed (.write abc)
    let s₂ := { s₁ with block := s₁.block.set 3 0xFF#8 }
    s₁ ≠ s₂ ∧ s₁.constructed = true ∧ s₂.constructed = true ∧ s₁.h = s₂.h ∧ s₁.c = s₂.c ∧ s₁.size = s₂.size ∧
    s₁.offset = s₂.offset ∧ ∀ i : Fin 64, i.val < s₁.offset.val → s₁.block[i] = s₂.block[i] := by decide +kernel

theorem witness_DigestIsTheHashOfTheMessage :
    (1 ≤ (1 : Byte).toNat ∧ (1 : Byte).toNat ≤ 32 ∧ ([] : List Byte).length ≤ 32) ∧
    (1 ≤ (32 : Byte).toNat ∧ (32 : Byte).toNat ≤ 32 ∧ (zeros 32).length ≤ 32) := by decide +kernel

theorem witness_ResetUndoesWrites :
    1 ≤ (32 : Byte).toNat ∧ (32 : Byte).toNat ≤ 32 ∧ (count 32).length ≤ 32 ∧ count 32 ≠ [] := by decide +kernel

/-- A record with a good tag and length and these size and offset bytes. -/
def shortRecord (z o : Byte) : List Byte := magic ++ zeros 40 ++ [z] ++ zeros 64 ++ [o]

/-- A wrong tag, a wrong length, and each wrong field. -/
theorem witness_UnmarshalLoadsTheRecord_errors :
    [0x62#8, 0x32#8].take 3 ≠ magic ∧ (magic.take 3 = magic ∧ magic.length ≠ 109) ∧
    ∀ P ∈ [shortRecord 0 64, shortRecord 33 64, shortRecord 32 65], P.take 3 = magic ∧ P.length = 109 ∧
      ((P.getD 43 0).toNat = 0 ∨ 32 < (P.getD 43 0).toNat ∨ 64 < (P.getD 108 0).toNat) := by decide

/-- Good records at the bounds. -/
theorem witness_UnmarshalLoadsTheRecord :
    ∀ P ∈ [shortRecord 1 0, shortRecord 32 64], P.take 3 = magic ∧ P.length = 109 ∧
      1 ≤ (P.getD 43 0).toNat ∧ (P.getD 43 0).toNat ≤ 32 ∧ (P.getD 108 0).toNat ≤ 64 := by decide

theorem witness_SnapshotRoundTrip : unkeyed.Inv ∧ unkeyed.constructed = true ∧ unkeyed.keylen.val = 0 :=
  ⟨⟨by decide +kernel, rfl, fun _ h => nomatch (show none = some _ from h)⟩, rfl, rfl⟩

/-- For CompressOneBlock, CompressComposes, CompressIsPure and CompressCountsItsBytes: one block, and two. -/
theorem witness_compress :
    (zeros 64).length = 64 ∧ 64 ≤ (zeros 64).length ∧ (zeros 64).length % 64 = 0 ∧ 64 ≤ (zeros 128).length ∧
    (zeros 128).length % 64 = 0 := by decide +kernel

theorem witness_CompressOutsideTheContractIsRefused :
    ([] : List Byte).length = 0 ∧ (zeros 63).length % 64 ≠ 0 ∧ (zeros 65).length % 64 ≠ 0 := by decide +kernel

theorem witness_GIsTheEightAssignments : ∃ run, (compressing 1 0).inside = some run := ⟨_, rfl⟩

theorem witness_GNeedsACompression : State.reset.inside = none := rfl

theorem witness_LanesCommute :
    (∃ run, (compressing 1 0).inside = some run) ∧ (0 : Fin 8).val / 4 = (3 : Fin 8).val / 4 ∧
    (4 : Fin 8).val / 4 = (7 : Fin 8).val / 4 := ⟨⟨_, rfl⟩, by decide +kernel⟩

theorem witness_MicroStepsRefineCompress :
    1 ≤ 2 ∧ (zeros 128).length = 64 * 2 ∧ ∀ rest, State.reset.inbox ≠ .powerOn :: rest :=
  ⟨by decide +kernel, by decide +kernel, fun _ h => by cases h⟩

theorem witness_EveryCommandAnswersOnce : (Instr.sum).isCommand = true ∧ (Instr.reservedF 0 0 []).isCommand = true := by
  decide +kernel

/-- A command that fails on a keyed digest. -/
theorem witness_ErrorsChangeNothing :
    (Instr.marshal).isCommand = true ∧ exec .marshal keyed = .next (run keyed .marshal) ∧
    Responds keyed (run keyed .marshal) (.command 3 []) ∧ (3 : Word).toNat % 256 ≠ 0 := by
  refine ⟨rfl, rfl, ?_, by decide +kernel⟩
  unfold Responds; decide

theorem witness_OnlyConstructionConfigures :
    configures .reset = false ∧ exec .reset keyed = .next (run keyed .reset) := ⟨rfl, rfl⟩

theorem witness_KeyedDigestsAreNeverExported :
    keyed.constructed = true ∧ 0 < keyed.keylen.val ∧ configures .reset = false ∧
    exec .reset keyed = .next (run keyed .reset) := ⟨rfl, by decide +kernel, rfl, rfl⟩

/-- Two engines with different keys. -/
theorem witness_OnlyDigestsDependOnTheKey :
    let s₁ := keyed
    let s₂ := run State.reset (.init256 (zeros 32))
    s₁.key ≠ s₂.key ∧ s₁.constructed = true ∧ s₂.constructed = true ∧ 0 < s₁.keylen.val ∧ 0 < s₂.keylen.val ∧
    Instr.reset ≠ .sum ∧ exec .reset s₁ = .next (run s₁ .reset) ∧ exec .reset s₂ = .next (run s₂ .reset) :=
  ⟨by decide +kernel, rfl, rfl, by decide +kernel, by decide +kernel, by decide +kernel, rfl, rfl⟩

/-- Two engines that have not been constructed and differ in a hash word. -/
theorem witness_UnwrittenRegistersAreNeverSeen :
    SameOutside State.reset { State.reset with h := iv } ∧ State.reset ≠ { State.reset with h := iv } :=
  ⟨⟨rfl, rfl, rfl, rfl, rfl, fun h => Bool.noConfusion (show false = true from h)⟩, by decide +kernel⟩

theorem witness_StepKeepsTheInvariant :
    (asked (.command 0x00002001 [])).Inv ∧ ∃ t, step (asked (.command 0x00002001 [])) = .next t :=
  ⟨⟨fun h => Bool.noConfusion (show false = true from h), rfl, fun _ h => nomatch (show none = some _ from h)⟩,
    _, rfl⟩

theorem witness_StreamInvariantIsKept :
    (∀ P, Instr.reset ≠ .unmarshal P) ∧ unkeyed.StreamInv ∧ exec .reset unkeyed = .next (run unkeyed .reset) :=
  ⟨fun _ h => (nomatch h), fun _ => by decide +kernel, rfl⟩

end Sys2Proof.Tests
end

section
/-! PROOFS. The scope of a step (00_scope.md): one request, run to completion. -/

namespace Sys2Proof.Machine

/-- A request whose words decode is executed, and nothing else is done for it (R9). -/
theorem runRequest_of_decode {q : Request} {i : Instr} (hi : decode (.port q) = .ok i) (s : State) :
    runRequest q s = exec i s := by
  have hq : decodeRequest q = .ok i := hi
  simp only [runRequest, hq]

/-- Settles O6: with the engine free a step is `runRequest` on the inbox's head (`step_request`), and the request's
words decode. -/
theorem stepRunsTheDecodedRequest : Obligations.StepRunsTheDecodedRequest := by
  intro s q rest i hfree hinbox hdecode
  calc step s = runRequest q { s with inbox := rest } := step_request hfree hinbox
    _ = exec i { s with inbox := rest } := runRequest_of_decode hdecode _

end Sys2Proof.Machine
end

section
/-! PROOFS. How outcomes chain: a run of steps, and a micro-operation with the sequencer's advance (10_state.md rule
R19). -/

namespace Sys2Proof.Machine

/-- `f` on the next state of `o`; a stop stays a stop. -/
def andThen {σ φ ρ : Type} (o : Host.Outcome σ φ ρ) (f : σ → Host.Outcome σ φ ρ) : Host.Outcome σ φ ρ :=
  match o with
  | .next s => f s
  | .fault r => .fault r
  | .refused r => .refused r

@[simp] theorem andThen_next {σ φ ρ : Type} (s : σ) (f : σ → Host.Outcome σ φ ρ) :
    andThen (.next s) f = f s := rfl

theorem coreRun_succ (M : Host.Core) (k : Nat) (s : M.State) :
    M.run (k + 1) s = andThen (M.step s) (M.run k) := by
  rw [Host.Core.run]
  cases M.step s <;> rfl

/-- `core.run`, with the machine's own types in place of the fields of `core`. -/
def runSteps (k : Nat) (s : State) : Host.Outcome State Fault Refusal := core.run k s

theorem runSteps_succ (k : Nat) (s : State) : runSteps (k + 1) s = andThen (step s) (runSteps k) :=
  coreRun_succ core k s

theorem runSteps_one (s : State) : runSteps 1 s = step s := by
  rw [runSteps_succ]
  cases step s <;> rfl

/-- After `a` steps the other `b` steps of a run start where those ended. -/
theorem runSteps_add_of_next {a : Nat} {s t : State} (h : runSteps a s = .next t) (b : Nat) :
    runSteps (a + b) s = runSteps b t := by
  induction a generalizing s with
  | zero => rw [Nat.zero_add]; cases h; rfl
  | succ a ih =>
    rw [runSteps_succ] at h
    rw [Nat.succ_add, runSteps_succ]
    cases hs : step s with
    | next u => rw [hs] at h; exact ih h
    | fault r => rw [hs] at h; cases h
    | refused r => rw [hs] at h; cases h

theorem runMicro_of_decode {U : BitVec 7} {i : Instr} (h : decodeMicro U = .ok i) (s : State) :
    runMicro U s = andThen (exec i s) fun t => .next t.advanceSequencer := by
  simp only [runMicro, h]
  cases exec i s <;> rfl

/-- Where a step finds its input: a power-on reset, the sequencer, a request, or nowhere. -/
theorem next_input_cases (s : State) :
    (∃ rest, s.inbox = .powerOn :: rest) ∨
    (∃ run, s.inside = some run ∧ ∀ rest, s.inbox ≠ .powerOn :: rest) ∨
    (∃ q rest, s.inside = none ∧ s.inbox = .request q :: rest) ∨
    (s.inside = none ∧ s.inbox = []) := by
  cases hq : s.inbox with
  | nil => cases hr : s.inside <;> simp
  | cons input rest =>
    cases input with
    | powerOn => simp
    | request q => cases hr : s.inside <;> simp

end Sys2Proof.Machine
end

section
/-! PROOFS. The registers before construction (10_state.md rule R23; 70_reset_and_hazards.md rule R151): what an engine
that is not constructed holds in them is never seen. -/

namespace Sys2Proof.Machine

/-! ### Outcomes that agree -/

theorem OutcomesAgree.refl {P : State → State → Prop} (h : ∀ s, P s s) (o : Host.Outcome State Fault Refusal) :
    OutcomesAgree P o o := by
  cases o with
  | next s => exact h s
  | fault r => exact rfl
  | refused r => exact rfl

theorem OutcomesAgree.andThen {P Q : State → State → Prop} {o₁ o₂ : Host.Outcome State Fault Refusal}
    {f g : State → Host.Outcome State Fault Refusal} (ho : OutcomesAgree P o₁ o₂)
    (hf : ∀ t₁ t₂, P t₁ t₂ → OutcomesAgree Q (f t₁) (g t₂)) : OutcomesAgree Q (andThen o₁ f) (andThen o₂ g) := by
  cases o₁ <;> cases o₂
  case next.next t₁ t₂ => exact hf t₁ t₂ ho
  case fault.fault => exact ho
  case refused.refused => exact ho
  all_goals exact ho.elim

/-- A relation that one step keeps is kept by any number of steps. -/
theorem runSteps_agree {P : State → State → Prop} (hstep : ∀ s₁ s₂, P s₁ s₂ → OutcomesAgree P (step s₁) (step s₂))
    (k : Nat) : ∀ s₁ s₂, P s₁ s₂ → OutcomesAgree P (runSteps k s₁) (runSteps k s₂) := by
  induction k with
  | zero => exact fun _ _ h => h
  | succ k ih =>
    intro s₁ s₂ h
    rw [runSteps_succ, runSteps_succ]
    exact (hstep s₁ s₂ h).andThen ih

/-! ### Two engines that differ in unwritten registers -/

/-- The engine `s` with the digest registers of `r`: `r`'s ports, work in progress and construct bit play no part. -/
def State.withRegistersOf (s r : State) : State :=
  { s with
    h := r.h, c := r.c, block := r.block, offset := r.offset, size := r.size, keylen := r.keylen, key := r.key }

theorem SameOutside.refl (s : State) : SameOutside s s := ⟨rfl, rfl, rfl, rfl, rfl, fun _ => rfl⟩

theorem sameOutside_withRegistersOf {s : State} (h : s.constructed = false) (r : State) :
    SameOutside s (s.withRegistersOf r) :=
  ⟨rfl, rfl, rfl, rfl, rfl, fun hc => by rw [h] at hc; cases hc⟩

/-- Related engines are equal, or are not constructed and differ in the digest registers alone. -/
theorem SameOutside.eq_or_withRegistersOf {s₁ s₂ : State} (h : SameOutside s₁ s₂) :
    s₂ = s₁ ∨ s₁.constructed = false ∧ s₂ = s₁.withRegistersOf s₂ := by
  obtain ⟨hinbox, houtbox, hinside, hshadow, hconstructed, heq⟩ := h
  cases hc : s₁.constructed with
  | true => exact .inl (heq hc).symm
  | false =>
    refine .inr ⟨rfl, ?_⟩
    rw [State.withRegistersOf, hinbox, houtbox, hinside, hshadow, hconstructed]

/-- To show that an operation agrees on related engines, it is enough to look at those that are not constructed. -/
theorem agree_of_unconstructed {f : State → Host.Outcome State Fault Refusal}
    (h : ∀ s r, s.constructed = false → OutcomesAgree SameOutside (f s) (f (s.withRegistersOf r)))
    {s₁ s₂ : State} (hs : SameOutside s₁ s₂) : OutcomesAgree SameOutside (f s₁) (f s₂) := by
  obtain rfl | ⟨hc, he⟩ := hs.eq_or_withRegistersOf
  · exact .refl SameOutside.refl _
  · rw [he]; exact h s₁ s₂ hc

/-! ### One instruction -/

section
variable {s : State} (hc : s.constructed = false) (r : State)
include hc

theorem raise_withRegistersOf (E : Status) :
    OutcomesAgree SameOutside (raise E s) (raise E (s.withRegistersOf r)) :=
  sameOutside_withRegistersOf (s := s.respond E []) hc r

theorem whenConstructed_withRegistersOf (body : State → Host.Outcome State Fault Refusal) :
    OutcomesAgree SameOutside (whenConstructed s body) (whenConstructed (s.withRegistersOf r) body) := by
  have hc' : (s.withRegistersOf r).constructed = false := hc
  simp only [whenConstructed, hc, hc']
  exact raise_withRegistersOf hc r .notConstructed

omit hc in
/-- Construction writes every digest register (R101). -/
theorem construct_withRegistersOf (z : Fin 33) (P : List Byte) :
    (s.withRegistersOf r).construct z P = s.construct z P := by
  have hk : ((s.withRegistersOf r).configure z P).keyed = (s.configure z P).keyed := rfl
  unfold State.construct State.seed
  rw [hk]
  split <;> rfl

theorem constructChecked_withRegistersOf (z : Fin 33) (P : List Byte) :
    OutcomesAgree SameOutside (constructChecked z P s) (constructChecked z P (s.withRegistersOf r)) := by
  simp only [constructChecked, construct_withRegistersOf]
  split
  · exact raise_withRegistersOf hc r .invalidKeySize
  · exact .refl SameOutside.refl _

theorem execInit_withRegistersOf (z : Byte) (P : List Byte) :
    OutcomesAgree SameOutside (execInit z P s) (execInit z P (s.withRegistersOf r)) := by
  unfold execInit
  split
  · exact constructChecked_withRegistersOf hc r _ P
  · exact raise_withRegistersOf hc r .illegalCommand

theorem execInit128_withRegistersOf (P : List Byte) :
    OutcomesAgree SameOutside (execInit128 P s) (execInit128 P (s.withRegistersOf r)) := by
  unfold execInit128
  split
  · exact raise_withRegistersOf hc r .keyRequired
  · exact constructChecked_withRegistersOf hc r 16 P

/-- UNMARSHAL writes every digest register, or none (R121). -/
theorem execUnmarshal_withRegistersOf (P : List Byte) :
    OutcomesAgree SameOutside (execUnmarshal P s) (execUnmarshal P (s.withRegistersOf r)) := by
  unfold execUnmarshal
  split
  · exact raise_withRegistersOf hc r .invalidStateIdentifier
  split
  · exact raise_withRegistersOf hc r .invalidStateSize
  split
  · exact SameOutside.refl _
  · exact raise_withRegistersOf hc r .invalidStateField

theorem execCompress_withRegistersOf (fin : Bool) (h : Vector Word 8) (ctr : Vector Word 2) (data : List Byte) :
    OutcomesAgree SameOutside (execCompress fin h ctr data s) (execCompress fin h ctr data (s.withRegistersOf r)) := by
  unfold execCompress
  split
  · exact sameOutside_withRegistersOf (s := { s with outbox := s.outbox ++ _ }) hc r
  · exact rfl

theorem execG_withRegistersOf (round : Fin 10) (slot : Fin 8) :
    OutcomesAgree SameOutside (execG round slot s) (execG round slot (s.withRegistersOf r)) := by
  have hin : (s.withRegistersOf r).inside = s.inside := rfl
  unfold execG
  rw [hin]
  cases s.inside with
  | none => exact rfl
  | some run => exact sameOutside_withRegistersOf (s := { s with inside := some _ }) hc r

theorem exec_withRegistersOf (i : Instr) :
    OutcomesAgree SameOutside (exec i s) (exec i (s.withRegistersOf r)) := by
  cases i with
  | init z P => exact execInit_withRegistersOf hc r z P
  | init128 P => exact execInit128_withRegistersOf hc r P
  | init256 P => exact constructChecked_withRegistersOf hc r 32 P
  | unmarshal P => exact execUnmarshal_withRegistersOf hc r P
  | write P => simp only [exec, execWrite]; exact whenConstructed_withRegistersOf hc r _
  | sum => simp only [exec, execSum]; exact whenConstructed_withRegistersOf hc r _
  | reset => simp only [exec, execReset]; exact whenConstructed_withRegistersOf hc r _
  | marshal => simp only [exec, execMarshal]; exact whenConstructed_withRegistersOf hc r _
  | compress fin h ctr data => exact execCompress_withRegistersOf hc r fin h ctr data
  | g round slot => exact execG_withRegistersOf hc r round slot
  | reserved0 | reserved9 | reservedA | reservedB | reservedC | reservedD | reservedE | reservedF =>
    exact raise_withRegistersOf hc r .illegalCommand

end

theorem exec_agree (i : Instr) {s₁ s₂ : State} (h : SameOutside s₁ s₂) :
    OutcomesAgree SameOutside (exec i s₁) (exec i s₂) :=
  agree_of_unconstructed (fun _ r hc => exec_withRegistersOf hc r i) h

/-! ### One step -/

theorem SameOutside.advanceSequencer {s₁ s₂ : State} (h : SameOutside s₁ s₂) :
    SameOutside s₁.advanceSequencer s₂.advanceSequencer := by
  obtain rfl | ⟨hc, he⟩ := h.eq_or_withRegistersOf
  · exact .refl _
  · have hin : (s₁.withRegistersOf s₂).inside = s₁.inside := rfl
    rw [he]
    unfold State.advanceSequencer
    rw [hin]
    split
    · exact sameOutside_withRegistersOf hc s₂
    split
    · exact sameOutside_withRegistersOf (s := { s₁ with inside := some _ }) hc s₂
    split
    · exact sameOutside_withRegistersOf (s := { s₁ with inside := some _ }) hc s₂
    · exact sameOutside_withRegistersOf (s := { s₁ with inside := none, outbox := _ }) hc s₂

theorem runMicro_agree (U : BitVec 7) {s₁ s₂ : State} (h : SameOutside s₁ s₂) :
    OutcomesAgree SameOutside (runMicro U s₁) (runMicro U s₂) := by
  cases hU : decodeMicro U with
  | ok i =>
    rw [runMicro_of_decode hU, runMicro_of_decode hU]
    exact (exec_agree i h).andThen fun _ _ ht => ht.advanceSequencer
  | error why => simp only [runMicro, hU]; exact rfl

theorem runRequest_agree (q : Request) {s₁ s₂ : State} (h : SameOutside s₁ s₂) :
    OutcomesAgree SameOutside (runRequest q s₁) (runRequest q s₂) := by
  unfold runRequest
  split
  · exact exec_agree _ h
  · exact agree_of_unconstructed (fun _ r hc => raise_withRegistersOf hc r .illegalCommand) h
  · exact rfl

theorem step_agree {s₁ s₂ : State} (h : SameOutside s₁ s₂) : OutcomesAgree SameOutside (step s₁) (step s₂) := by
  refine agree_of_unconstructed (fun s r hc => ?_) h
  obtain ⟨rest, hq⟩ | ⟨run, hr, hq⟩ | ⟨q, rest, hr, hq⟩ | ⟨hr, hq⟩ := next_input_cases s
  · rw [step_powerOn hq, step_powerOn (s := s.withRegistersOf r) hq]
    exact SameOutside.refl _
  · rw [step_micro hr hq, step_micro (s := s.withRegistersOf r) hr hq]
    exact runMicro_agree run.u (sameOutside_withRegistersOf hc r)
  · rw [step_request hr hq, step_request (s := s.withRegistersOf r) hr hq]
    exact runRequest_agree q (sameOutside_withRegistersOf (s := { s with inbox := rest }) hc r)
  · rw [step_idle hr hq, step_idle (s := s.withRegistersOf r) hr hq]
    exact sameOutside_withRegistersOf hc r

/-- Settles O46: one step keeps the relation (`step_agree`), so any number of steps does. -/
theorem unwrittenRegistersAreNeverSeen : Obligations.UnwrittenRegistersAreNeverSeen :=
  runSteps_agree fun _ _ => step_agree

end Sys2Proof.Machine
end

section
/-! PROOFS. What an instruction can do to the state, said once (10_state.md rules R10 to R19), and the invariants that
follow from it (R13 to R18, R21). -/

namespace Sys2Proof.Machine

/-! ### The next states of an instruction -/

/-- `t` is a next state of the instruction in `s`: it gives responses and does nothing else, or it writes
registers in one of six ways. -/
inductive NextState (s : State) : Instr → State → Prop
  | answers (i : Instr) (rs : List Response) : NextState s i { s with outbox := s.outbox ++ rs }
  | constructs (i : Instr) (z : Fin 33) (P : List Byte) (hi : configures i = true) (hz : 1 ≤ z.val)
      (hP : P.length ≤ 32) : NextState s i ((s.construct z P).respond .ok [])
  | loads (P : List Byte) (z : Fin 33) (o : Fin 65) (hz : 1 ≤ z.val) :
      NextState s (.unmarshal P) ((s.restored P z o).respond .ok [])
  | writes (P : List Byte) (hc : s.constructed = true) : NextState s (.write P) ((s.written P).respond .ok [])
  | digests : NextState s .sum (s.closeShadow.respond .ok (sumDigest s))
  | reseeds : NextState s .reset (s.seed.respond .ok [])
  | mixes (r : Fin 10) (k : Fin 8) (run : CoreRun) (hr : s.inside = some run) :
      NextState s (.g r k) { s with inside := some { run with v := gStep run.m r k run.v } }

theorem nextState_of_raise {i : Instr} {E : Status} {s t : State} (h : raise E s = .next t) : NextState s i t := by
  cases h; exact .answers i _

theorem nextState_of_constructChecked {i : Instr} {z : Fin 33} {P : List Byte} {s t : State}
    (h : constructChecked z P s = .next t) (hi : configures i = true) (hz : 1 ≤ z.val) : NextState s i t := by
  by_cases hP : P.length ≤ 32
  · rw [constructChecked_eq z P s hP] at h
    cases h; exact .constructs i z P hi hz hP
  · rw [constructChecked_long z P s (by omega)] at h
    cases h; exact .answers i _

theorem whenConstructed_cases {s t : State} {body : State → Host.Outcome State Fault Refusal}
    (h : whenConstructed s body = .next t) :
    (s.constructed = true ∧ body s = .next t) ∨ raise .notConstructed s = .next t := by
  unfold whenConstructed at h
  split at h
  · exact .inl ⟨‹_›, h⟩
  · exact .inr h

theorem nextState_of_exec {i : Instr} {s t : State} (h : exec i s = .next t) : NextState s i t := by
  cases i with
  | init z P =>
    by_cases hz : 1 ≤ z.toNat ∧ z.toNat ≤ 32
    · rw [exec, execInit_eq z P s hz] at h
      exact nextState_of_constructChecked h rfl hz.1
    · simp only [exec, execInit, hz] at h
      exact nextState_of_raise h
  | init128 P =>
    simp only [exec, execInit128] at h
    split at h
    · exact nextState_of_raise h
    · exact nextState_of_constructChecked h rfl (by decide)
  | init256 P => exact nextState_of_constructChecked h rfl (by decide)
  | write P =>
    simp only [exec, execWrite] at h
    obtain ⟨hc, h⟩ | h := whenConstructed_cases h
    · cases h; exact .writes P hc
    · exact nextState_of_raise h
  | sum =>
    by_cases hc : s.constructed = true
    · rw [exec, execSum_eq s hc] at h
      cases h; exact .digests
    · simp only [exec, execSum, whenConstructed, hc] at h
      exact nextState_of_raise h
  | reset =>
    simp only [exec, execReset] at h
    obtain ⟨-, h⟩ | h := whenConstructed_cases h
    · cases h; exact .reseeds
    · exact nextState_of_raise h
  | marshal =>
    simp only [exec, execMarshal] at h
    obtain ⟨-, h⟩ | h := whenConstructed_cases h
    · split at h
      · exact nextState_of_raise h
      · cases h; exact .answers .marshal _
    · exact nextState_of_raise h
  | unmarshal P =>
    simp only [exec, execUnmarshal] at h
    split at h
    · exact nextState_of_raise h
    split at h
    · exact nextState_of_raise h
    split at h
    · rename_i hf
      cases h; exact .loads P _ _ hf.1.1
    · exact nextState_of_raise h
  | compress fin hIn cIn data =>
    simp only [exec, execCompress] at h
    split at h
    · cases h; exact .answers _ _
    · cases h
  | g r k =>
    cases hr : s.inside with
    | none => simp only [exec, execG, hr] at h; cases h
    | some run =>
      rw [exec, execG_eq r k hr] at h
      cases h; exact .mixes r k run hr
  | reserved0 | reserved9 | reservedA | reservedB | reservedC | reservedD | reservedE | reservedF =>
    exact nextState_of_raise h

/-! ### The configuration (R13, R14, R15) -/

/-- Settles O43: of the instructions' next states only a construction and a loaded record have another
configuration. -/
theorem onlyConstructionConfigures : Obligations.OnlyConstructionConfigures := by
  intro s t i hi h
  cases nextState_of_exec h with
  | constructs _ z P hi' => rw [hi] at hi'; cases hi'
  | loads P z o => cases hi
  | answers | writes | digests | reseeds | mixes => simp

/-! ### The invariant (R13, R14, R16, R18, R19) -/

/-- A constructed engine has a legal size and a key register that is zero from keylen on: the first part of the
invariant. -/
def State.ConfigValid (s : State) : Prop :=
  s.constructed = true → 1 ≤ s.size.val ∧ ∀ i : Fin 32, s.keylen.val ≤ i.val → s.key[i] = 0

/-- A compression in progress is at a micro-operation 0 .. 79 and has whole blocks left: the last part of the
invariant. -/
def State.InsideValid (s : State) : Prop :=
  ∀ run, s.inside = some run → run.u.toNat < 80 ∧ run.rest.length % 64 = 0

theorem inv_iff (s : State) : s.Inv ↔ s.ConfigValid ∧ s.shadow = none ∧ s.InsideValid := Iff.rfl

theorem configValid_of_eq {s t : State} (hs : s.ConfigValid)
    (h : t.size = s.size ∧ t.keylen = s.keylen ∧ t.key = s.key ∧ t.constructed = s.constructed) : t.ConfigValid := by
  obtain ⟨hsize, hkeylen, hkey, hconstructed⟩ := h
  unfold State.ConfigValid
  rw [hsize, hkeylen, hkey, hconstructed]
  exact hs

theorem configValid_construct (z : Fin 33) (P : List Byte) (s : State) (hz : 1 ≤ z.val) (hP : P.length ≤ 32) :
    (s.construct z P).ConfigValid := by
  intro _
  refine ⟨by rwa [State.construct_size], fun i hi => ?_⟩
  rw [construct_keylen_val z P s hP] at hi
  simp [padded_get, List.getD_eq_getElem?_getD, List.getElem?_eq_none hi]

theorem exec_keeps_configValid {i : Instr} {s t : State} (hs : s.ConfigValid) (h : exec i s = .next t) :
    t.ConfigValid := by
  cases nextState_of_exec h with
  | constructs _ z P _ hz hP => exact configValid_construct z P s hz hP
  | loads P z o hz => exact fun _ => ⟨hz, fun i _ => by simp⟩
  | answers | writes | digests | reseeds | mixes => exact configValid_of_eq hs (by simp)

theorem exec_keeps_shadow_none {i : Instr} {s t : State} (hs : s.shadow = none) (h : exec i s = .next t) :
    t.shadow = none := by
  cases nextState_of_exec h with
  | digests => rfl
  | answers | constructs | loads | writes | reseeds | mixes => simpa using hs

theorem exec_keeps_insideValid {i : Instr} {s t : State} (hs : s.InsideValid) (h : exec i s = .next t) :
    t.InsideValid := by
  cases nextState_of_exec h with
  | mixes r k run hr => intro run' hr'; cases hr'; exact hs run hr
  | constructs | loads | answers | writes | digests | reseeds => simpa [State.InsideValid] using hs

theorem exec_keeps_inv {i : Instr} {s t : State} (hs : s.Inv) (h : exec i s = .next t) : t.Inv := by
  obtain ⟨hconfig, hshadow, hinside⟩ := (inv_iff s).mp hs
  exact (inv_iff t).mpr
    ⟨exec_keeps_configValid hconfig h, exec_keeps_shadow_none hshadow h, exec_keeps_insideValid hinside h⟩

/-! ### The sequencer's advance (R19, R91) -/

theorem advanceSequencer_idle {s : State} (h : s.inside = none) : s.advanceSequencer = s := by
  simp only [State.advanceSequencer, h]

theorem advanceSequencer_within {s : State} {run : CoreRun} (h : s.inside = some run) (hu : run.u.toNat < 79) :
    s.advanceSequencer = { s with inside := some { run with u := run.u + 1 } } := by
  simp only [State.advanceSequencer, h, hu, if_true]

theorem advanceSequencer_nextBlock {s : State} {run : CoreRun} (h : s.inside = some run) (hu : ¬run.u.toNat < 79)
    (hl : 64 ≤ run.rest.length) :
    s.advanceSequencer =
      { s with inside := some (CoreRun.beginBlock run.fin (run.blk + 1) run.folded run.rest) } := by
  simp only [State.advanceSequencer, h, hu, hl, if_true, if_false]

theorem advanceSequencer_done {s : State} {run : CoreRun} (h : s.inside = some run) (hu : ¬run.u.toNat < 79)
    (hl : ¬64 ≤ run.rest.length) :
    s.advanceSequencer =
      { s with inside := none, outbox := s.outbox ++ [.core run.folded.h run.folded.c] } := by
  simp only [State.advanceSequencer, h, hu, hl, if_false]

theorem advanceSequencer_keeps_inv {s : State} (hs : s.Inv) : s.advanceSequencer.Inv := by
  obtain ⟨hconfig, hshadow, hinside⟩ := (inv_iff s).mp hs
  cases hr : s.inside with
  | none => rwa [advanceSequencer_idle hr]
  | some run =>
    obtain ⟨hu, hrest⟩ := hinside run hr
    by_cases hlast : run.u.toNat < 79
    · rw [advanceSequencer_within hr hlast]
      refine ⟨hconfig, hshadow, fun run' hr' => ?_⟩
      cases hr'
      have hnext : (run.u + 1).toNat < 80 := by rw [BitVec.toNat_add]; simp; omega
      exact ⟨hnext, hrest⟩
    by_cases hleft : 64 ≤ run.rest.length
    · rw [advanceSequencer_nextBlock hr hlast hleft]
      refine ⟨hconfig, hshadow, fun run' hr' => ?_⟩
      cases hr'
      have hdrop : (run.rest.drop 64).length % 64 = 0 := by rw [List.length_drop]; omega
      exact ⟨Nat.zero_lt_succ 79, hdrop⟩
    · rw [advanceSequencer_done hr hlast hleft]
      exact ⟨hconfig, hshadow, fun run' hr' => by cases hr'⟩

/-! ### Every step -/

/-- An engine that is not constructed, with nothing in progress, meets the invariant whatever its registers hold. -/
theorem inv_of_unconstructed {s : State} (hc : s.constructed = false) (hsh : s.shadow = none)
    (hin : s.inside = none) : s.Inv :=
  ⟨fun h => (by rw [hc] at h; cases h), hsh, fun run h => by rw [hin] at h; cases h⟩

/-- Settles O48: by the four cases of a step, with `exec_keeps_inv` and `advanceSequencer_keeps_inv`. -/
theorem stepKeepsTheInvariant : Obligations.StepKeepsTheInvariant := by
  intro s t hs h
  obtain ⟨rest, -, rfl⟩ | ⟨run, i, u, -, -, hu, rfl⟩ | ⟨q, rest, -, -, ⟨i, -, hi⟩ | ⟨why, -, rfl⟩⟩ | ⟨-, -, rfl⟩ :=
    step_cases h
  · exact inv_of_unconstructed rfl rfl rfl
  · exact advanceSequencer_keeps_inv (exec_keeps_inv hs hu)
  · exact exec_keeps_inv (s := { s with inbox := rest }) hs hi
  · exact hs
  · exact hs

/-- Settles O47: right after power-on nothing is constructed and nothing is in progress. -/
theorem resetMeetsTheInvariants : Obligations.ResetMeetsTheInvariants :=
  ⟨inv_of_unconstructed rfl rfl rfl, fun h => by cases h⟩

/-! ### The stream invariant (R21, R12) -/

theorem counterValue_zero : counterValue #v[0, 0] = 0 := rfl

/-- The counter after WRITE: the buffered bytes and the payload, but for the bytes left in the buffer (R104). -/
theorem counterValue_written (s : State) (P : List Byte) :
    counterValue (s.written P).c =
      (counterValue s.c + 64 * interiorBlocks (s.offset.val + P.length)) % 2 ^ 64 := by
  have hchain := (written_spec s P).chain
  have hlen : (s.buffered ++ P).length = s.offset.val + P.length := by rw [List.length_append, buffered_length]
  rw [hlen] at hchain
  have hc : (s.written P).c = (s.written P).chain.c := rfl
  rw [hc, hchain, counterValue_compressBlocks]
  rfl

theorem written_offset (s : State) (P : List Byte) :
    (s.written P).offset.val = s.offset.val + P.length - 64 * interiorBlocks (s.offset.val + P.length) := by
  have hlen : (s.buffered ++ P).length = s.offset.val + P.length := by rw [List.length_append, buffered_length]
  rw [(written_spec s P).offset, hlen]

/-- A WRITE that leaves the buffer empty wrote nothing into an empty buffer. -/
theorem interiorBlocks_eq_zero_of_rest {T : Nat} (h : T - 64 * interiorBlocks T = 0) : T = 0 := by
  unfold interiorBlocks at h; omega

theorem written_keeps_streamInv {s : State} (P : List Byte) (hc : s.constructed = true) (hs : s.StreamInv) :
    (s.written P).StreamInv := by
  intro _
  obtain ⟨hmul, hzero⟩ := hs hc
  rw [counterValue_written, written_offset, State.written_keylen]
  refine ⟨by omega, fun hoff => ?_⟩
  have hT : s.offset.val + P.length = 0 := interiorBlocks_eq_zero_of_rest hoff
  obtain ⟨hcounter, hkeylen⟩ := hzero (by omega)
  rw [hT, hcounter]
  exact ⟨rfl, hkeylen⟩

/-- After SEED the counter is 0, and the buffer is empty only if there is no key. -/
theorem seed_stream (s : State) :
    counterValue s.seed.c % 64 = 0 ∧
      (s.seed.offset.val = 0 → counterValue s.seed.c = 0 ∧ s.seed.keylen.val = 0) := by
  rw [State.seed_c, seed_offset, State.seed_keylen, counterValue_zero]
  refine ⟨rfl, fun hoff => ⟨rfl, ?_⟩⟩
  by_cases h : s.keylen.val = 0
  · exact h
  · rw [if_neg h] at hoff; cases hoff

/-- Settles O49: a WRITE adds whole blocks to the counter and leaves the buffer empty only if it is empty
(`written_keeps_streamInv`); a construction and a RESET are SEED (`seed_stream`). -/
theorem streamInvariantIsKept : Obligations.StreamInvariantIsKept := by
  intro s t i hi hs h
  cases nextState_of_exec h with
  | loads P => exact absurd rfl (hi P)
  | constructs _ z P => exact fun _ => seed_stream (s.configure z P)
  | writes P hc => exact written_keeps_streamInv P hc hs
  | reseeds => exact fun _ => seed_stream s
  | answers | digests | mixes => exact hs

end Sys2Proof.Machine
end

section
/-! PROOFS. WRITE and SUM on the counter and the pending buffer (10_state.md rules R11, R12, R21;
41_streaming_digest.md rules R104 to R106). -/

namespace Sys2Proof.Machine

/-! ### WRITE -/

theorem execWrite_eq {s : State} (h : s.constructed = true) (P : List Byte) :
    execWrite P s = .next ((s.written P).respond .ok []) := by
  simp only [execWrite, whenConstructed, h, if_true, succeed]

/-- WRITE's frame: only the chain and the pending buffer change (R104). -/
theorem written_frame (s : State) (P : List Byte) :
    s.written P =
      { s with
        h := (s.written P).h, c := (s.written P).c
        block := (s.written P).block, offset := (s.written P).offset } := by
  unfold State.written
  split <;> [split; skip] <;> rfl

/-- Settles O15: the frame is `written_frame`, the rest is WRITE's spec lemma `written_spec`. -/
theorem writeCompressesAllButTheLastBlock : Obligations.WriteCompressesAllButTheLastBlock := by
  intro s P hc T N x
  obtain ⟨hchain, hoffset, hbuffered, hstale⟩ := written_spec s P
  have hh : (s.written P).h = x.h := congrArg Chain.h hchain
  have hctr : (s.written P).c = x.c := congrArg Chain.c hchain
  refine ⟨_, execWrite_eq hc P, ?_, hoffset, hbuffered, fun i hi => hstale i.val i.isLt hi⟩
  calc (s.written P).respond .ok []
      = State.respond .ok [] { s with
          h := (s.written P).h, c := (s.written P).c
          block := (s.written P).block, offset := (s.written P).offset } :=
        congrArg (State.respond .ok []) (written_frame s P)
    _ = _ := by rw [hh, hctr]; rfl

/-- Settles O17: WRITE moves the interior blocks from the buffer and the payload to the counter
(`counterValue_written`), and the offset is what is left (`written_offset`). -/
theorem writeCountsEveryByteOnce : Obligations.WriteCountsEveryByteOnce := by
  intro s P hc
  have hrest := (interiorBlocks_rest (s.offset.val + P.length)).2
  have hsum : (counterValue (s.written P).c + (s.written P).offset.val) % 2 ^ 64 =
      (counterValue s.c + s.offset.val + P.length) % 2 ^ 64 := by
    rw [counterValue_written, written_offset]; omega
  exact ⟨_, execWrite_eq hc P, hsum⟩

/-! ### SUM -/

/-- The buffered bytes are the bytes below offset (R12). -/
theorem buffered_eq_of_agree {s₁ s₂ : State} (ho : s₁.offset = s₂.offset)
    (hb : ∀ i : Fin 64, i.val < s₁.offset.val → s₁.block[i] = s₂.block[i]) : s₁.buffered = s₂.buffered := by
  apply List.ext_getElem
  · rw [buffered_length, buffered_length, ho]
  · intro k h₁ h₂
    have hk : k < s₁.offset.val := by rwa [buffered_length] at h₁
    have hk64 : k < 64 := by have := s₁.offset.isLt; omega
    simpa [State.buffered] using hb ⟨k, hk64⟩ hk

theorem sum_answers {s : State} (h : s.constructed = true) :
    Answers (exec .sum s) fun t => Responds s t (.command (responseHeader .ok (sumDigest s)) (sumDigest s)) :=
  ⟨_, execSum_eq s h, rfl⟩

/-- Settles O23: SUM reads h, c, size, offset and the buffered bytes, and no other byte of the buffer. -/
theorem sumIgnoresStaleBytes : Obligations.SumIgnoresStaleBytes := by
  intro s₁ s₂ hc₁ hc₂ hh hctr hsize hoffset hblock
  have hdigest : sumDigest s₁ = sumDigest s₂ := by
    simp only [sumDigest, hh, hctr, hsize, hoffset, buffered_eq_of_agree hoffset hblock]
  refine ⟨_, sum_answers hc₁, ?_⟩
  rw [hdigest]
  exact sum_answers hc₂

end Sys2Proof.Machine
end

section
/-! PROOFS. The sequencer (10_state.md rules R16 to R19): one micro-operation, the 80 of a block, all blocks of a
COMPRESS; and what stands outside a compression (R15, R23, R150). -/

namespace Sys2Proof.Machine

/-! ### Outside a compression -/

/-- Settles O8: the free engine's idle step (`step_idle`) and the power-on step (`step_powerOn`). -/
theorem powerOnForgetsTheDigest : Obligations.PowerOnForgetsTheDigest := by
  refine ⟨⟨rfl, rfl, rfl, rfl⟩, fun s hq hr => step_idle hr hq, fun s rest hq => ?_⟩
  exact ⟨_, step_powerOn hq, rfl, rfl, rfl, rfl, rfl⟩

theorem execG_idle {s : State} (r : Fin 10) (k : Fin 8) (h : s.inside = none) :
    execG r k s = .refused .coreIdle := by
  simp only [execG, h]

/-- Settles O36: G has no working vector to act on (`execG_idle`). -/
theorem gNeedsACompression : Obligations.GNeedsACompression := fun _ r k h => execG_idle r k h

/-! ### One micro-operation -/

/-- Format U has the micro-operations and nothing else (R59). -/
theorem eq_g_of_decodeMicro {U : BitVec 7} {i : Instr} (h : decodeMicro U = .ok i) : ∃ r k, i = .g r k := by
  unfold decodeMicro at h
  split at h
  · cases h; exact ⟨_, _, rfl⟩
  · cases h

/-- A compression in progress after the G of round r and slot k, before the sequencer's advance. -/
def CoreRun.afterG (run : CoreRun) (r : Fin 10) (k : Fin 8) : CoreRun := { run with v := gStep run.m r k run.v }

/-- A step in a compression is the G the sequencer is at, then the sequencer's advance (R19). -/
theorem step_g {s : State} {run : CoreRun} {r : Fin 10} {k : Fin 8} (hr : s.inside = some run)
    (hq : ∀ rest, s.inbox ≠ .powerOn :: rest) (hU : decodeMicro run.u = .ok (.g r k)) :
    step s = .next (State.advanceSequencer { s with inside := some (run.afterG r k) }) := by
  rw [step_micro hr hq, runMicro_of_decode hU, exec, execG_eq r k hr, andThen_next]
  rfl

/-- Settles O7: the three clauses are the three cases of the sequencer's advance. -/
theorem stepRunsTheSequencersMicroOperation : Obligations.StepRunsTheSequencersMicroOperation := by
  intro s run i hr hq hi
  obtain ⟨r, k, rfl⟩ := eq_g_of_decodeMicro hi
  have hstep := step_g hr hq hi
  refine ⟨gStep run.m r k run.v, execG_eq r k hr, fun hu => ?_, fun hu hl => ?_, fun hu hl => ?_⟩
  · rw [hstep, advanceSequencer_within (run := run.afterG r k) rfl hu]; rfl
  · rw [hstep, advanceSequencer_nextBlock (run := run.afterG r k) rfl (Nat.not_lt.mpr hu.ge) hl]; rfl
  · rw [hstep, advanceSequencer_done (run := run.afterG r k) rfl (Nat.not_lt.mpr hu.ge) (Nat.not_le.mpr hl)]; rfl

/-! ### The 80 micro-operations of a block -/

/-- The sequencer's micro-operation number j is the j-th of `microOrder`: round j / 8, slot j mod 8 (R59). -/
theorem microOrder_getElem? (j : Fin 80) :
    microOrder[j.val]? = some (⟨j.val / 8, by omega⟩, ⟨j.val % 8, by omega⟩) := by
  revert j; decide

theorem decodeMicro_ofNat (j : Fin 80) :
    decodeMicro (BitVec.ofNat 7 j.val) = .ok (.g ⟨j.val / 8, by omega⟩ ⟨j.val % 8, by omega⟩) := by
  revert j; decide

/-- The working vector after the first j micro-operations of a block. -/
def mixedBy (m v : Vector Word 16) (j : Nat) : Vector Word 16 :=
  (microOrder.take j).foldl (fun v rs => gStep m rs.1 rs.2 v) v

theorem mixedBy_succ (m v : Vector Word 16) (j : Fin 80) :
    mixedBy m v (j.val + 1) = gStep m ⟨j.val / 8, by omega⟩ ⟨j.val % 8, by omega⟩ (mixedBy m v j.val) := by
  rw [mixedBy, List.take_add_one, microOrder_getElem?, List.foldl_append]
  rfl

/-- All 80 are the ten rounds (R85, R91). -/
theorem mixedBy_all (m v : Vector Word 16) : mixedBy m v 80 = tenRounds m v := by
  have h : microOrder.take 80 = microOrder := by decide
  simp only [mixedBy, h, tenRounds_eq_mixed, mixed, gStep_eq_gLines]

/-- A compression at the start of a block, j micro-operations later, with the sequencer at u. -/
def CoreRun.mixedTo (run : CoreRun) (j : Nat) (u : BitVec 7) : CoreRun :=
  { run with v := mixedBy run.m run.v j, u := u }

theorem CoreRun.mixedTo_zero {run : CoreRun} (h : run.u = 0) : run.mixedTo 0 0#7 = run := by
  cases run; cases h; rfl

theorem CoreRun.mixedTo_afterG (run : CoreRun) (j : Fin 80) (u : BitVec 7) :
    (run.mixedTo j.val u).afterG ⟨j.val / 8, by omega⟩ ⟨j.val % 8, by omega⟩ = run.mixedTo (j.val + 1) u := by
  simp only [CoreRun.afterG, CoreRun.mixedTo, mixedBy_succ]

/-- The fold after all 80 micro-operations of a block gives COMPRESS1 (R90, R91). -/
theorem folded_beginBlock (fin : Bool) (blk : Nat) (x : Chain) (data : List Byte) (u : BitVec 7) :
    ((CoreRun.beginBlock fin blk x data).mixedTo 80 u).folded =
      compress1 (finalizeFlag fin) x (padded 64 data) := by
  simp only [CoreRun.folded, CoreRun.mixedTo, mixedBy_all]
  rfl

/-- At the last micro-operation of a block the sequencer does not stay in the block (R19). -/
theorem lastMicro_not_lt : ¬(BitVec.ofNat 7 79).toNat < 79 := by decide

/-- The state `s` with a compression in progress. -/
def State.compressing (s : State) (run : CoreRun) : State := { s with inside := some run }

section
variable {s : State} (hq : ∀ rest, s.inbox ≠ .powerOn :: rest)
include hq

/-- One micro-operation of a block: G on the working vector so far, then the advance. -/
theorem step_mixedTo (run : CoreRun) (j : Fin 80) :
    step (s.compressing (run.mixedTo j.val (.ofNat 7 j.val))) =
      .next (s.compressing (run.mixedTo (j.val + 1) (.ofNat 7 j.val))).advanceSequencer := by
  rw [← CoreRun.mixedTo_afterG]
  exact step_g (s := s.compressing (run.mixedTo j.val (.ofNat 7 j.val))) rfl hq (decodeMicro_ofNat j)

/-- The first j < 80 steps of a block take its first j micro-operations. -/
theorem runSteps_mixedTo {run : CoreRun} (hu : run.u = 0) {j : Nat} (hj : j < 80) :
    runSteps j (s.compressing run) = .next (s.compressing (run.mixedTo j (.ofNat 7 j))) := by
  induction j with
  | zero => rw [CoreRun.mixedTo_zero hu]; rfl
  | succ j ih =>
    have hlt : (BitVec.ofNat 7 j).toNat < 79 := by rw [BitVec.toNat_ofNat]; omega
    have hnext : BitVec.ofNat 7 (j + 1) = BitVec.ofNat 7 j + 1 := BitVec.ofNat_add ..
    calc runSteps (j + 1) (s.compressing run)
        = step (s.compressing (run.mixedTo j (.ofNat 7 j))) := by
          rw [runSteps_add_of_next (ih (by omega)), runSteps_one]
      _ = .next (s.compressing (run.mixedTo (j + 1) (.ofNat 7 j))).advanceSequencer :=
          step_mixedTo hq run ⟨j, by omega⟩
      _ = .next (s.compressing (run.mixedTo (j + 1) (.ofNat 7 (j + 1)))) := by
          rw [hnext]
          exact congrArg Host.Outcome.next
            (advanceSequencer_within (s := s.compressing (run.mixedTo (j + 1) (.ofNat 7 j))) rfl hlt)

/-- The 80 steps of a block run all its micro-operations; the last one ends with the sequencer's advance from 79. -/
theorem runSteps_block {run : CoreRun} (hu : run.u = 0) :
    runSteps 80 (s.compressing run) = .next (s.compressing (run.mixedTo 80 (.ofNat 7 79))).advanceSequencer := by
  rw [runSteps_add_of_next (runSteps_mixedTo hq hu (j := 79) (by decide)) 1, runSteps_one]
  exact step_mixedTo hq run ⟨79, by decide⟩

/-! ### The blocks of a COMPRESS -/

/-- 80 steps with a block to follow: the next block begins, on the chain of COMPRESS1 (R91, R92). -/
theorem runSteps_beginBlock (fin : Bool) (blk : Nat) (x : Chain) {data : List Byte} (h : 128 ≤ data.length) :
    runSteps 80 (s.compressing (.beginBlock fin blk x data)) =
      .next (s.compressing
        (.beginBlock fin (blk + 1) (compress1 (finalizeFlag fin) x (padded 64 data)) (data.drop 64))) := by
  have hrest : 64 ≤ (data.drop 64).length := by rw [List.length_drop]; omega
  rw [runSteps_block hq rfl, advanceSequencer_nextBlock rfl lastMicro_not_lt hrest, folded_beginBlock]
  rfl

/-- 80 steps through the last block: the core gives its result and holds nothing (R91, R92). -/
theorem runSteps_lastBlock (fin : Bool) (blk : Nat) (x : Chain) {data : List Byte} (h : data.length < 128) :
    let y := compress1 (finalizeFlag fin) x (padded 64 data)
    runSteps 80 (s.compressing (.beginBlock fin blk x data)) =
      .next { s with inside := none, outbox := s.outbox ++ [.core y.h y.c] } := by
  have hrest : ¬64 ≤ (data.drop 64).length := by rw [List.length_drop]; omega
  rw [runSteps_block hq rfl, advanceSequencer_done rfl lastMicro_not_lt hrest, folded_beginBlock]
  rfl

/-- 80 steps for each of n + 1 blocks give COMPRESS of those blocks (R92). -/
theorem runSteps_blocks (fin : Bool) (n : Nat) (blk : Nat) (x : Chain) {data : List Byte}
    (h : data.length = 64 * (n + 1)) :
    let y := compressBlocks (finalizeFlag fin) (n + 1) x data
    runSteps (80 * (n + 1)) (s.compressing (.beginBlock fin blk x data)) =
      .next { s with inside := none, outbox := s.outbox ++ [.core y.h y.c] } := by
  induction n generalizing blk x data with
  | zero => exact runSteps_lastBlock hq fin blk x (by omega)
  | succ n ih =>
    have hsteps : 80 * (n + 1 + 1) = 80 + 80 * (n + 1) := by omega
    have hdrop : (data.drop 64).length = 64 * (n + 1) := by rw [List.length_drop]; omega
    rw [hsteps, runSteps_add_of_next (runSteps_beginBlock hq fin blk x (by omega))]
    exact ih (blk + 1) _ hdrop

end

theorem execCompress_eq (fin : Bool) (x : Chain) {data : List Byte} {n : Nat} (h : data.length = 64 * (n + 1))
    (s : State) :
    let y := compressBlocks (finalizeFlag fin) (n + 1) x data
    execCompress fin x.h x.c data s = .next { s with outbox := s.outbox ++ [.core y.h y.c] } := by
  have hcontract : data.length % 64 = 0 ∧ 64 ≤ data.length := by omega
  have hblocks : data.length / 64 = n + 1 := by omega
  simp only [execCompress, hcontract, and_self, if_true, compress, hblocks]

/-- Settles O39: by induction on the blocks (`runSteps_blocks`), with the 80 micro-operations of a block as its ten
rounds (`runSteps_block`). -/
theorem microStepsRefineCompress : Obligations.MicroStepsRefineCompress := by
  intro s fin x data N hN hlen hq
  obtain ⟨n, rfl⟩ : ∃ n, N = n + 1 := ⟨N - 1, by omega⟩
  exact ⟨_, execCompress_eq fin x hlen { s with inside := none }, runSteps_blocks hq fin n 0 x hlen⟩

end Sys2Proof.Machine
end

section
/-! PROOFS. The command port's responses (20_memory.md rule R46, 30_encoding.md rules R55, R56). -/

namespace Sys2Proof.Machine

/-- STATUS in bits 7:0, zeros in bits 15:8, QLEN in bits 31:16 (R55). -/
theorem responseHeader_fields (S : Status) {Q : List Byte} (h : Q.length < 65536) :
    (responseHeader S Q).toNat % 256 = S.code.toNat ∧ (responseHeader S Q).toNat / 256 % 256 = 0 ∧
      (responseHeader S Q).toNat / 65536 = Q.length := by
  have hcode := S.code_le
  rw [responseHeader_toNat S Q h]
  omega

/-- The two ways a command ends, read as one response on the command port (R46). -/
theorem CommandEnds.answers {s : State} {o : Host.Outcome State Fault Refusal} (h : CommandEnds s o) :
    ∃ S Q, Answers o (fun t => Responds s t (.command (responseHeader S Q) Q) ∧ t.inbox = s.inbox ∧
      t.inside = s.inside) ∧ Q.length < 65536 ∧ (S ≠ .ok → Q = []) := by
  obtain ⟨E, -, ho⟩ | ⟨u, Q, ho, hlen, houtbox, hinbox, hinside⟩ := h
  · exact ⟨E, [], ⟨_, ho, rfl, rfl, rfl⟩, by decide, fun _ => rfl⟩
  · have hresponds : Responds s (u.respond .ok Q) (.command (responseHeader .ok Q) Q) := by
      rw [Responds, State.respond_outbox, houtbox]
    exact ⟨.ok, Q, ⟨_, ho, hresponds, hinbox, hinside⟩, by omega, fun hS => absurd rfl hS⟩

/-- Settles O41: every command ends in one of the two ways of `exec_command_ends`, each of which gives one response
(`CommandEnds.answers`), and the header's fields are the status and the payload's length. -/
theorem everyCommandAnswersOnce : Obligations.EveryCommandAnswersOnce := by
  intro s i hi
  obtain ⟨S, Q, hanswers, hlen, herror⟩ := (exec_command_ends i s hi).answers
  obtain ⟨hstatus, hzeros, hqlen⟩ := responseHeader_fields S hlen
  refine ⟨_, Q, hanswers, ?_, hzeros, hqlen, fun hne => herror fun hok => ?_⟩
  · rw [hstatus]; exact S.code_le
  · rw [hstatus, hok] at hne
    exact hne rfl

end Sys2Proof.Machine
end

section
/-! PROOFS. The opcode table (30_encoding.md rules R51, R54, R57, R59) as a relation between fields and instructions, and
the decoder and the encoder read through it. -/

namespace Sys2Proof.Machine

/-! ### Format C -/

/-- The rows of format C: the instruction that OP, RSV, OUTSIZE and the payload stand for (R51, R54). -/
inductive CommandRow : BitVec 4 → BitVec 4 → Byte → List Byte → Instr → Prop
  | init (z : Byte) (P : List Byte) : CommandRow 1 0 z P (.init z P)
  | init128 (P : List Byte) : CommandRow 2 0 0 P (.init128 P)
  | init256 (P : List Byte) : CommandRow 3 0 0 P (.init256 P)
  | write (P : List Byte) : CommandRow 4 0 0 P (.write P)
  | sum : CommandRow 5 0 0 [] .sum
  | reset : CommandRow 6 0 0 [] .reset
  | marshal : CommandRow 7 0 0 [] .marshal
  | unmarshal (P : List Byte) : CommandRow 8 0 0 P (.unmarshal P)
  | reserved0 (rsv : BitVec 4) (z : Byte) (P : List Byte) : CommandRow 0 rsv z P (.reserved0 rsv z P)
  | reserved9 (rsv : BitVec 4) (z : Byte) (P : List Byte) : CommandRow 9 rsv z P (.reserved9 rsv z P)
  | reservedA (rsv : BitVec 4) (z : Byte) (P : List Byte) : CommandRow 10 rsv z P (.reservedA rsv z P)
  | reservedB (rsv : BitVec 4) (z : Byte) (P : List Byte) : CommandRow 11 rsv z P (.reservedB rsv z P)
  | reservedC (rsv : BitVec 4) (z : Byte) (P : List Byte) : CommandRow 12 rsv z P (.reservedC rsv z P)
  | reservedD (rsv : BitVec 4) (z : Byte) (P : List Byte) : CommandRow 13 rsv z P (.reservedD rsv z P)
  | reservedE (rsv : BitVec 4) (z : Byte) (P : List Byte) : CommandRow 14 rsv z P (.reservedE rsv z P)
  | reservedF (rsv : BitVec 4) (z : Byte) (P : List Byte) : CommandRow 15 rsv z P (.reservedF rsv z P)

section
variable {op rsv : BitVec 4} {z : Byte} {P : List Byte} {i : Instr}

theorem CommandRow.encode_eq (h : CommandRow op rsv z P i) : encode i = commandWords op rsv z P := by
  cases h <;> rfl

theorem CommandRow.wellFormed_iff (h : CommandRow op rsv z P i) : i.wellFormed = true ↔ P.length < 65536 := by
  rw [← payloadFits_iff]
  cases h <;> rfl

theorem CommandRow.isCommand (h : CommandRow op rsv z P i) : i.isCommand = true := by
  cases h <;> rfl

/-- A row gives its fields one meaning, which the decoder finds. -/
theorem CommandRow.decode_eq {W : Word} (h : CommandRow op rsv z P i) (hlen : P.length = (lenField W).toNat)
    (hop : opField W = op) (hrsv : rsvField W = rsv) (hz : outsizeField W = z) : decodeCommand W P = .ok i := by
  cases h with
  | init => simp [decodeCommand, whenRsvZero, hlen, hop, hrsv, hz]
  | init128 | init256 | write | unmarshal => simp [decodeCommand, whenPlain, hlen, hop, hrsv, hz]
  | sum | reset | marshal =>
    have hbare : lenField W = 0 := (field_eq_zero _).mpr hlen.symm
    simp [decodeCommand, whenBare, hbare, hop, hrsv, hz]
  | reserved0 | reserved9 | reservedA | reservedB | reservedC | reservedD | reservedE | reservedF =>
    simp [decodeCommand, hlen, hop, hrsv, hz]

end

/-- Every command has its row. -/
theorem exists_commandRow {i : Instr} (h : i.isCommand = true) : ∃ op rsv z P, CommandRow op rsv z P i := by
  cases i with
  | compress | g => cases h
  | _ => exact ⟨_, _, _, _, by constructor⟩

/-- The headers of illegal commands, in the decoder's fields (R54). -/
theorem illegalHeader_iff (W : Word) :
    IllegalHeader W ↔
      ((opField W).toNat = 0 ∨ 9 ≤ (opField W).toNat) ∨
      (rsvField W).toNat ≠ 0 ∨
      ((opField W).toNat ≠ 1 ∧ (outsizeField W).toNat ≠ 0) ∨
      ((opField W).toNat = 1 ∧ ¬(1 ≤ (outsizeField W).toNat ∧ (outsizeField W).toNat ≤ 32)) ∨
      (((opField W).toNat = 5 ∨ (opField W).toNat = 6 ∨ (opField W).toNat = 7) ∧ (lenField W).toNat ≠ 0) := by
  rw [opField_toNat, rsvField_toNat, outsizeField_toNat, lenField_toNat, IllegalHeader]

theorem illegalHeader_of_rsv {W : Word} (h : rsvField W ≠ 0) : IllegalHeader W :=
  (illegalHeader_iff W).mpr (.inr (.inl (mt (field_eq_zero _).mpr h)))

theorem illegalHeader_of_outsize {W : Word} (hop : (opField W).toNat ≠ 1) (h : outsizeField W ≠ 0) :
    IllegalHeader W :=
  (illegalHeader_iff W).mpr (.inr (.inr (.inl ⟨hop, mt (field_eq_zero _).mpr h⟩)))

theorem illegalHeader_of_len {W : Word} (hop : (opField W).toNat = 5 ∨ (opField W).toNat = 6 ∨ (opField W).toNat = 7)
    (h : lenField W ≠ 0) : IllegalHeader W :=
  (illegalHeader_iff W).mpr (.inr (.inr (.inr (.inr ⟨hop, mt (field_eq_zero _).mpr h⟩))))

/-- The two results the decoder can have on a pair (W, P) that the port delivers: the row's instruction, or the name of
a test of R63 that the header fails. -/
def DecodesByRow (W : Word) (P : List Byte) (o : Except Reject Instr) : Prop :=
  (∃ i, o = .ok i ∧ CommandRow (opField W) (rsvField W) (outsizeField W) P i) ∨
  ((∃ why, o = .error (.illegal why)) ∧ IllegalHeader W)

section
variable {W : Word} {P : List Byte} {i : Instr} {op : BitVec 4}

theorem decodesByRow_ok (h : CommandRow op (rsvField W) (outsizeField W) P i) (hop : (opField W).toNat = op.toNat) :
    DecodesByRow W P (.ok i) := by
  rw [← BitVec.eq_of_toNat_eq hop] at h
  exact .inl ⟨i, rfl, h⟩

theorem decodesByRow_whenRsvZero (h : CommandRow op 0 (outsizeField W) P i) (hop : (opField W).toNat = op.toNat) :
    DecodesByRow W P (whenRsvZero W i) := by
  unfold whenRsvZero
  split
  next hrsv => exact .inr ⟨⟨_, rfl⟩, illegalHeader_of_rsv hrsv⟩
  next hrsv => exact decodesByRow_ok (not_not.mp hrsv ▸ h) hop

theorem decodesByRow_whenPlain (h : CommandRow op 0 0 P i) (hop : (opField W).toNat = op.toNat)
    (hinit : op.toNat ≠ 1) : DecodesByRow W P (whenPlain W i) := by
  unfold whenPlain
  split
  next hrsv => exact .inr ⟨⟨_, rfl⟩, illegalHeader_of_rsv hrsv⟩
  next hrsv =>
    split
    next hz => exact .inr ⟨⟨_, rfl⟩, illegalHeader_of_outsize (hop ▸ hinit) hz⟩
    next hz => exact decodesByRow_ok (not_not.mp hrsv ▸ not_not.mp hz ▸ h) hop

theorem decodesByRow_whenBare (h : CommandRow op 0 0 [] i) (hop : (opField W).toNat = op.toNat)
    (hbare : op.toNat = 5 ∨ op.toNat = 6 ∨ op.toNat = 7) (hlen : P.length = (lenField W).toNat) :
    DecodesByRow W P (whenBare W i) := by
  unfold whenBare
  split
  next hrsv => exact .inr ⟨⟨_, rfl⟩, illegalHeader_of_rsv hrsv⟩
  next hrsv =>
    split
    next hz => exact .inr ⟨⟨_, rfl⟩, illegalHeader_of_outsize (by omega) hz⟩
    next hz =>
      split
      next hl => exact .inr ⟨⟨_, rfl⟩, illegalHeader_of_len (hop ▸ hbare) hl⟩
      next hl =>
        have hP : P = [] := by
          rw [← List.length_eq_zero_iff, hlen, ← field_eq_zero]; exact not_not.mp hl
        exact decodesByRow_ok (not_not.mp hrsv ▸ not_not.mp hz ▸ hP ▸ h) hop

end

/-- What the decoder can answer on a pair (W, P) that the port delivers. -/
theorem decodesByRow_decodeCommand {W : Word} {P : List Byte} (hlen : P.length = (lenField W).toNat) :
    DecodesByRow W P (decodeCommand W P) := by
  have hlt := (opField W).isLt
  simp only [decodeCommand, ne_eq, hlen, not_true_eq_false, if_false]
  split
  next hop => exact decodesByRow_ok (.reserved0 _ _ _) hop
  next hop => exact decodesByRow_whenRsvZero (.init _ _) hop
  next hop => exact decodesByRow_whenPlain (.init128 _) hop (by decide)
  next hop => exact decodesByRow_whenPlain (.init256 _) hop (by decide)
  next hop => exact decodesByRow_whenPlain (.write _) hop (by decide)
  next hop => exact decodesByRow_whenBare .sum hop (by decide) hlen
  next hop => exact decodesByRow_whenBare .reset hop (by decide) hlen
  next hop => exact decodesByRow_whenBare .marshal hop (by decide) hlen
  next hop => exact decodesByRow_whenPlain (.unmarshal _) hop (by decide)
  next hop => exact decodesByRow_ok (.reserved9 _ _ _) hop
  next hop => exact decodesByRow_ok (.reservedA _ _ _) hop
  next hop => exact decodesByRow_ok (.reservedB _ _ _) hop
  next hop => exact decodesByRow_ok (.reservedC _ _ _) hop
  next hop => exact decodesByRow_ok (.reservedD _ _ _) hop
  next hop => exact decodesByRow_ok (.reservedE _ _ _) hop
  next =>
    have hop : (opField W).toNat = 15 := by simp only [imp_false] at *; omega
    exact decodesByRow_ok (.reservedF _ _ _) hop

theorem decodeCommand_payloadLength {W : Word} {P : List Byte} (h : P.length ≠ (lenField W).toNat) :
    decodeCommand W P = .error .payloadLength := by
  simp only [decodeCommand, h, ne_eq, not_false_eq_true, if_true]

/-- Only a pair that the port delivers decodes, and then to its row's instruction. -/
theorem commandRow_of_decode {W : Word} {P : List Byte} {i : Instr} (h : decodeCommand W P = .ok i) :
    P.length = (lenField W).toNat ∧ CommandRow (opField W) (rsvField W) (outsizeField W) P i := by
  by_cases hlen : P.length = (lenField W).toNat
  · obtain ⟨j, hj, hrow⟩ | ⟨⟨why, hwhy⟩, -⟩ := decodesByRow_decodeCommand hlen
    · rw [h] at hj
      cases hj
      exact ⟨hlen, hrow⟩
    · rw [h] at hwhy; cases hwhy
  · rw [decodeCommand_payloadLength hlen] at h; cases h

/-! ### Format K -/

/-- The core requests with a meaning, in the numbers of the word (R57). -/
theorem decodeCore_eq_ok_iff {K : Word} {h : Vector Word 8} {ctr : Vector Word 2} {data : List Byte} {i : Instr} :
    decodeCore K h ctr data = .ok i ↔
      (K.toNat / 2 % 32768 = 0 ∧ K.toNat / 65536 ≠ 0 ∧ data.length = 64 * (K.toNat / 65536)) ∧
        i = .compress (finField K) h ctr data := by
  simp only [decodeCore, ne_eq, field_eq_zero, coreReserved_toNat, nblkField_toNat]
  split_ifs <;> simp_all [eq_comm]

theorem finField_eq (K : Word) : finField K = decide (K.toNat % 2 = 1) := by
  rw [finField, BitVec.getLsbD, Nat.testBit_zero]

theorem finField_coreWord (fin : Bool) {n : Nat} (h : n < 65536) : finField (coreWord fin n) = fin := by
  rw [finField_eq, coreWord_toNat fin n h]
  cases fin <;> simp <;> omega

/-- A core request's word is the word of its FIN and NBLK, when its reserved bits are 0. -/
theorem coreWord_of_fields {K : Word} (h : K.toNat / 2 % 32768 = 0) : coreWord (finField K) (K.toNat / 65536) = K := by
  have hK := K.isLt
  apply BitVec.eq_of_toNat_eq
  rw [coreWord_toNat _ _ (by omega), finField_eq]
  simp only [decide_eq_true_eq]
  split <;> omega

/-! ### Format U -/

/-- A micro-operation index that decodes is the index of its round and slot (R59). -/
theorem microWord_of_decode {U : BitVec 7} {i : Instr} (h : decodeMicro U = .ok i) :
    ∃ r k, i = .g r k ∧ microWord r k = U := by
  unfold decodeMicro at h
  split at h
  next hr =>
    cases h
    refine ⟨_, _, rfl, BitVec.eq_of_toNat_eq ?_⟩
    simp only [microWord_toNat, roundField_toNat, slotField_toNat]
    omega
  next => cases h

/-! ### All formats -/

/-- Settles O1: a command by its row, whose fields the header word carries (`headerWord_fields`); COMPRESS and G by
the fields of K and U. -/
theorem decodeEncodeAgree : Obligations.DecodeEncodeAgree := by
  intro i hwf
  by_cases hcommand : i.isCommand = true
  · obtain ⟨op, rsv, z, P, hrow⟩ := exists_commandRow hcommand
    obtain ⟨hop, hrsv, hz, hlen⟩ := headerWord_fields op rsv z P.length (hrow.wellFormed_iff.mp hwf)
    rw [hrow.encode_eq]
    exact hrow.decode_eq hlen.symm hop hrsv hz
  · cases i with
    | compress fin h ctr data =>
      obtain ⟨hwhole, hpos, hmax⟩ := (dataFits_iff data).mp hwf
      have hK := coreWord_toNat fin (data.length / 64) hmax
      refine decodeCore_eq_ok_iff.mpr ⟨?_, by rw [finField_coreWord fin hmax]⟩
      rw [hK]
      split <;> omega
    | g r k => exact decodeMicro_eq r k
    | _ => exact absurd rfl hcommand

/-- Settles O2: words that decode have the fields of their row (`commandRow_of_decode`), of which the encoder makes the
same words. -/
theorem encodeDecodeAgree : Obligations.EncodeDecodeAgree := by
  intro w i h
  match w with
  | .port (.command W P) =>
    obtain ⟨hlen, hrow⟩ := commandRow_of_decode h
    refine ⟨hrow.wellFormed_iff.mpr (hlen ▸ (lenField W).isLt), ?_⟩
    rw [hrow.encode_eq, commandWords, headerWord_of_fields W _ hlen]
  | .port (.core K hIn cIn data) =>
    obtain ⟨⟨hreserved, hpos, hlen⟩, rfl⟩ := decodeCore_eq_ok_iff.mp h
    have hK := K.isLt
    have hblocks : data.length / 64 = K.toNat / 65536 := by omega
    refine ⟨(dataFits_iff data).mpr (by omega), ?_⟩
    rw [encode, hblocks, coreWord_of_fields hreserved]
  | .micro U =>
    obtain ⟨r, k, rfl, hU⟩ := microWord_of_decode h
    exact ⟨rfl, by rw [encode, hU]⟩

end Sys2Proof.Machine
end

section
/-! PROOFS. The byte-serial transport and the pseudo-instruction WRITE (30_encoding.md rules R64, R66). -/

namespace Sys2Proof.Machine

/-! ### The byte-serial transport (R64) -/

/-- A word is made again of its four bytes. -/
theorem word_of_bytes (W : Word) :
    W.extractLsb' 24 8 ++ W.extractLsb' 16 8 ++ W.extractLsb' 8 8 ++ W.extractLsb' 0 8 = W := by
  have hW := W.isLt
  apply BitVec.eq_of_toNat_eq
  simp only [append_toNat, BitVec.extractLsb'_toNat, Nat.shiftRight_eq_div_pow]
  omega

/-- After the header's bytes the reader waits for LEN bytes, takes them, and leaves the others (R50, R64). -/
theorem deserialise_serialise (W : Word) (bytes : List Byte) :
    deserialise (serialise W bytes) =
      if bytes.length < (lenField W).toNat then none
      else some (.command W (bytes.take (lenField W).toNat), bytes.drop (lenField W).toNat) := by
  simp only [serialise, deserialise, word_of_bytes]

theorem serialise_length (W : Word) (P : List Byte) : (serialise W P).length = 4 + P.length := by
  simp [serialise]; omega

theorem serialise_append (W : Word) (P rest : List Byte) : serialise W P ++ rest = serialise W (P ++ rest) := rfl

theorem take_serialise (W : Word) (P : List Byte) (k : Nat) :
    (serialise W P).take (k + 4) = serialise W (P.take k) := rfl

/-- Fewer than four bytes are no header. -/
theorem deserialise_short : ∀ {bytes : List Byte}, bytes.length < 4 → deserialise bytes = none
  | [], _ | [_], _ | [_, _], _ | [_, _, _], _ => rfl
  | _ :: _ :: _ :: _ :: _, h => by simp at h; omega

/-- Settles O3: the reader takes LEN bytes after the header (`deserialise_serialise`) and an input cut
short ends inside the header or inside the payload. -/
theorem serialCommandsAreReadBack : Obligations.SerialCommandsAreReadBack := by
  intro W P rest hlen
  rw [← lenField_toNat] at hlen
  constructor
  · rw [serialise_append, deserialise_serialise, ← hlen]
    simp
  · intro k hk
    by_cases hheader : k < 4
    · exact deserialise_short (by rw [List.length_take]; omega)
    · obtain ⟨j, rfl⟩ := Nat.exists_eq_add_of_le' (Nat.not_lt.mp hheader)
      rw [take_serialise, deserialise_serialise, if_pos]
      rw [List.length_take]
      omega

/-! ### WRITE of any length (R66) -/

/-- The payloads `chunks` carry S, all but the last of LEN_MAX bytes, the last one no longer. -/
def SplitInto (S : List Byte) (chunks : List (List Byte)) : Prop :=
  chunks.flatten = S ∧ (∀ A ∈ chunks.dropLast, A.length = 65535) ∧ ∀ A ∈ chunks, A.length ≤ 65535

theorem splitInto_single {S : List Byte} (h : S.length ≤ 65535) : SplitInto S [S] := by
  simp [SplitInto, h]

/-- A full payload before the payloads of the rest. -/
theorem SplitInto.cons {S : List Byte} {chunks : List (List Byte)} (hS : 65535 ≤ S.length)
    (h : SplitInto (S.drop 65535) chunks) : SplitInto S (S.take 65535 :: chunks) := by
  obtain ⟨hjoin, hfull, hmax⟩ := h
  have hlen : (S.take 65535).length = 65535 := List.length_take_of_le hS
  refine ⟨?_, ?_, ?_⟩
  · rw [List.flatten_cons, hjoin, List.take_append_drop]
  · intro A hA
    cases chunks with
    | nil => cases hA
    | cons B rest =>
      obtain rfl | hA := List.mem_cons.mp hA
      · exact hlen
      · exact hfull A hA
  · intro A hA
    obtain rfl | hA := List.mem_cons.mp hA
    · exact hlen.le
    · exact hmax A hA

/-- With enough fuel the split carries all of S: each step takes LEN_MAX bytes off it. -/
theorem splitWrites_splits {fuel : Nat} {S : List Byte} (h : S.length / 65535 < fuel) :
    ∃ chunks, splitWrites fuel S = chunks.map Instr.write ∧ SplitInto S chunks := by
  induction fuel generalizing S with
  | zero => omega
  | succ fuel ih =>
    unfold splitWrites
    split
    next hfits => exact ⟨[S], rfl, splitInto_single hfits⟩
    next hlong =>
      have hlong' : 65535 < S.length := Nat.not_le.mp hlong
      obtain ⟨chunks, hchunks, hsplit⟩ := ih (S := S.drop 65535) (by rw [List.length_drop]; omega)
      exact ⟨S.take 65535 :: chunks, by rw [List.map_cons, ← hchunks]; rfl, hsplit.cons hlong'.le⟩

/-- Settles O5: the fuel of `pseudoWrite` is enough (`splitWrites_splits`). -/
theorem longWritesAreSplit : Obligations.LongWritesAreSplit := fun S =>
  splitWrites_splits (Nat.lt_succ_self (S.length / 65535))

end Sys2Proof.Machine
end

section
/-! PROOFS. What the engine does not execute: illegal commands, which it answers (30_encoding.md rule R54,
60_exceptions.md rule R141), and words outside the formats and the core's contract, which the model refuses (R50, R57,
R59, R92). -/

namespace Sys2Proof.Machine

/-! ### The illegal instructions (R54) -/

theorem illegalCommand_eq (s : State) :
    illegalCommand s = .next { s with outbox := s.outbox ++ [.command 6#32 []] } := rfl

/-- Settles O40: the meaning of every reserved opcode is `illegalCommand`. -/
theorem reservedOpcodesAnswerIllegalCommand : Obligations.ReservedOpcodesAnswerIllegalCommand := by
  intro s rsv z P
  have h := illegalCommand_eq s
  exact ⟨h, h, h, h, h, h, h, h⟩

/-- The instructions that are illegal commands: a reserved opcode, or INIT with a reserved OUTSIZE (R54). -/
def IllegalInstr : Instr → Prop
  | .init z _ => ¬(1 ≤ z.toNat ∧ z.toNat ≤ 32)
  | .reserved0 _ _ _ | .reserved9 _ _ _ | .reservedA _ _ _ | .reservedB _ _ _ => True
  | .reservedC _ _ _ | .reservedD _ _ _ | .reservedE _ _ _ | .reservedF _ _ _ => True
  | _ => False

theorem exec_illegal {i : Instr} (h : IllegalInstr i) (s : State) : exec i s = illegalCommand s := by
  cases i with
  | init z P => rw [exec, execInit, dif_neg h]; rfl
  | reserved0 | reserved9 | reservedA | reservedB | reservedC | reservedD | reservedE | reservedF => rfl
  | _ => cases h

/-- A row's header is illegal when its instruction is. -/
theorem CommandRow.illegalHeader_iff {W : Word} {op rsv : BitVec 4} {z : Byte} {P : List Byte} {i : Instr}
    (h : CommandRow op rsv z P i) (hlen : P.length = (lenField W).toNat) (hop : opField W = op)
    (hrsv : rsvField W = rsv) (hz : outsizeField W = z) : IllegalHeader W ↔ IllegalInstr i := by
  rw [Machine.illegalHeader_iff, hop, hrsv, hz, ← hlen]
  cases h <;> simp [IllegalInstr]

/-! ### The answers of the other commands -/

/-- The outcome is one response on the command port, and its status is not IllegalCommand. -/
def AnswersLegal (s : State) (o : Host.Outcome State Fault Refusal) : Prop :=
  ∃ R Q, Answers o fun t => Responds s t (.command R Q) ∧ R.toNat % 256 ≠ 6

theorem answersLegal_raise {E : Status} (s : State) (h : E ≠ .illegalCommand) : AnswersLegal s (raise E s) := by
  refine ⟨_, [], _, rfl, rfl, ?_⟩
  rw [(responseHeader_fields E (Q := []) (by decide)).1]
  revert h
  cases E <;> decide

theorem answersLegal_succeed {s u : State} {Q : List Byte} (hout : u.outbox = s.outbox) (hQ : Q.length < 65536) :
    AnswersLegal s (succeed Q u) := by
  refine ⟨responseHeader .ok Q, Q, u.respond .ok Q, rfl, ?_, ?_⟩
  · rw [Responds, State.respond_outbox, hout]
  · rw [(responseHeader_fields .ok hQ).1]; decide

theorem answersLegal_constructChecked (z : Fin 33) (P : List Byte) (s : State) :
    AnswersLegal s (constructChecked z P s) := by
  unfold constructChecked
  split
  · exact answersLegal_raise s (by decide)
  · exact answersLegal_succeed (by simp) (by decide)

theorem answersLegal_whenConstructed {s : State} {body : State → Host.Outcome State Fault Refusal}
    (h : s.constructed = true → AnswersLegal s (body s)) : AnswersLegal s (whenConstructed s body) := by
  unfold whenConstructed
  split
  next hc => exact h hc
  next => exact answersLegal_raise s (by decide)

theorem exec_legal {i : Instr} (hcommand : i.isCommand = true) (hlegal : ¬IllegalInstr i) (s : State) :
    AnswersLegal s (exec i s) := by
  cases i with
  | init z P =>
    rw [exec, execInit_eq z P s (not_not.mp hlegal)]
    exact answersLegal_constructChecked _ P s
  | init128 P =>
    rw [exec, execInit128]
    split
    · exact answersLegal_raise s (by decide)
    · exact answersLegal_constructChecked 16 P s
  | init256 P => exact answersLegal_constructChecked 32 P s
  | write P =>
    rw [exec, execWrite]
    exact answersLegal_whenConstructed fun _ => answersLegal_succeed (by simp) (by decide)
  | sum =>
    by_cases hc : s.constructed = true
    · have hlen := sumDigest_length s
      rw [exec, execSum_eq s hc]
      exact answersLegal_succeed (u := s.closeShadow) rfl (by omega)
    · rw [exec, execSum, whenConstructed, if_neg hc]
      exact answersLegal_raise s (by decide)
  | reset =>
    rw [exec, execReset]
    exact answersLegal_whenConstructed fun _ => answersLegal_succeed (by simp) (by decide)
  | marshal =>
    rw [exec, execMarshal]
    refine answersLegal_whenConstructed fun _ => ?_
    split
    · exact answersLegal_raise s (by decide)
    · exact answersLegal_succeed rfl (by rw [record_length]; decide)
  | unmarshal P =>
    rw [exec, execUnmarshal]
    split_ifs
    · exact answersLegal_raise s (by decide)
    · exact answersLegal_raise s (by decide)
    · exact answersLegal_succeed (by simp) (by decide)
    · exact answersLegal_raise s (by decide)
  | compress | g => cases hcommand
  | _ => exact absurd trivial hlegal

/-- Settles O10: the decoder finds the header's row or a failed test of R63 (`decodesByRow_decodeCommand`). -/
theorem illegalCommandsAreTheReservedEncodings : Obligations.IllegalCommandsAreTheReservedEncodings := by
  intro s W P rest hfree hinbox hlen
  rw [step_request hfree hinbox]
  rw [← lenField_toNat] at hlen
  obtain ⟨i, hi, hrow⟩ | ⟨⟨why, hwhy⟩, hillegal⟩ := decodesByRow_decodeCommand hlen
  · rw [runRequest_of_decode (q := .command W P) hi, hrow.illegalHeader_iff hlen rfl rfl rfl]
    refine ⟨fun h => exec_illegal h _, fun h => ?_⟩
    exact exec_legal hrow.isCommand h { s with inbox := rest }
  · have hrun : runRequest (.command W P) { s with inbox := rest } = illegalCommand { s with inbox := rest } := by
      simp only [runRequest, decodeRequest, hwhy]; rfl
    exact ⟨fun _ => hrun, fun h => absurd hillegal h⟩

/-! ### Refusals -/

/-- Words that are neither an instruction nor an illegal command are refused by their name (R50, R57). -/
theorem runRequest_of_reject {q : Request} {why : Reject} (h : decodeRequest q = .error why)
    (hwhy : ∀ w, why ≠ .illegal w) (s : State) : runRequest q s = .refused (.rejected why) := by
  cases why with
  | illegal w => exact absurd rfl (hwhy w)
  | _ => simp only [runRequest, h]

/-- No core request is an illegal command (R57). -/
theorem decodeCore_ne_illegal (K : Word) (h : Vector Word 8) (ctr : Vector Word 2) (data : List Byte) (w : Illegal) :
    decodeCore K h ctr data ≠ .error (.illegal w) := by
  unfold decodeCore
  split_ifs <;> simp

/-- A micro-operation index of a round past the tenth is refused (R59). -/
theorem runMicro_of_round {U : BitVec 7} (h : 80 ≤ U.toNat) (s : State) :
    runMicro U s = .refused (.rejected .microRound) := by
  have hround : ¬(roundField U).toNat < 10 := by rw [roundField_toNat]; omega
  simp only [runMicro, decodeMicro, hround, dif_neg, not_false_eq_true]

/-- Settles O9: of the words named, the decoder gives a name that is no illegal command's. -/
theorem wordsOutsideTheFormatsAreRefused : Obligations.WordsOutsideTheFormatsAreRefused := by
  refine ⟨fun s W P rest hfree hinbox hlen => ?_, fun s K h ctr data rest hfree hinbox hbad => ?_,
    fun s run hrun hq hu => ?_⟩
  · rw [step_request hfree hinbox]
    rw [← lenField_toNat] at hlen
    exact runRequest_of_reject (q := .command W P) (decodeCommand_payloadLength hlen) (fun w hw => by cases hw) _
  · rw [step_request hfree hinbox]
    cases hdecode : decodeCore K h ctr data with
    | ok i =>
      obtain ⟨⟨hreserved, hpos, hdata⟩, -⟩ := decodeCore_eq_ok_iff.mp hdecode
      omega
    | error why =>
      refine ⟨why, runRequest_of_reject (q := .core K h ctr data) hdecode (fun w hw => ?_) _⟩
      exact decodeCore_ne_illegal K h ctr data w (hw ▸ hdecode)
  · rw [step_micro hrun hq, runMicro_of_round hu]

/-- Settles O33: the data fails the contract that `execCompress` tests. -/
theorem compressOutsideTheContractIsRefused : Obligations.CompressOutsideTheContractIsRefused := by
  intro s fin h ctr data hbad
  have hcontract : ¬(data.length % 64 = 0 ∧ 64 ≤ data.length) := by omega
  rw [exec, execCompress, if_neg hcontract]

end Sys2Proof.Machine
end

section
/-! PROOFS. Words of the spec (95_test_vectors.md section 2.9). -/

namespace Sys2Proof.Machine

/-- Settles O4: the decoder's value on each of the twelve words. -/
theorem specWordsDecode : Obligations.SpecWordsDecode := by
  unfold Obligations.SpecWordsDecode
  decide

end Sys2Proof.Machine
end

section
/-! PROOFS. COMPRESS on the core port (40_compression_core.md rules R87 to R94): its result, one block, many blocks. -/

namespace Sys2Proof.Machine

/-- COMPRESS of whole blocks completes: one core response, and nothing of the state is read or changed (R92, R94). -/
theorem exec_compress (fin : Bool) (h : Vector Word 8) (ctr : Vector Word 2) {data : List Byte}
    (hpos : 64 ≤ data.length) (hwhole : data.length % 64 = 0) (s : State) :
    let y := compress (finalizeFlag fin) { h := h, c := ctr } data
    exec (.compress fin h ctr data) s = .next { s with outbox := s.outbox ++ [.core y.h y.c] } := by
  rw [exec, execCompress, if_pos ⟨hwhole, hpos⟩]

/-- Settles O32: the response of `exec_compress` is written without the state. -/
theorem compressIsPure : Obligations.CompressIsPure :=
  fun fin h ctr _ hpos hwhole => ⟨_, _, exec_compress fin h ctr hpos hwhole⟩

/-- COMPRESS of whole blocks and the data after them is COMPRESS of the blocks, then of that data (R93). -/
theorem compress_append (f : Word) (x : Chain) {A : List Byte} (B : List Byte) (hA : A.length % 64 = 0) :
    compress f x (A ++ B) = compress f (compress f x A) B := by
  have hbytes : 64 * (A.length / 64) = A.length := by omega
  have hblocks : (A ++ B).length / 64 = A.length / 64 + B.length / 64 := by rw [List.length_append]; omega
  rw [compress, hblocks, compressBlocks_add, compressBlocks_append f _ x A B hbytes.le, hbytes, List.drop_left]
  rfl

/-- Settles O31: all three calls complete (`exec_compress`), and COMPRESS is a loop over its blocks
(`compress_append`). -/
theorem compressComposes : Obligations.CompressComposes := by
  intro s fin h ctr A B hposA hA hposB hB
  have hpos : 64 ≤ (A ++ B).length := by rw [List.length_append]; omega
  have hwhole : (A ++ B).length % 64 = 0 := by rw [List.length_append]; omega
  refine ⟨_, _, _, _, exec_compress fin h ctr hposA hA s, exec_compress fin _ _ hposB hB s, ?_⟩
  rw [exec_compress fin h ctr hpos hwhole s, compress_append _ _ B hA]

/-- Settles O34: each block is counted once (`counterValue_compressBlocks`), and the data is its blocks. -/
theorem compressCountsItsBytes : Obligations.CompressCountsItsBytes := by
  intro s fin h ctr data hpos hwhole
  refine ⟨_, _, exec_compress fin h ctr hpos hwhole s, ?_⟩
  have hbytes : 64 * (data.length / 64) = data.length := by omega
  rw [compress, counterValue_compressBlocks, hbytes]

/-! ### One block (R87 to R91) -/

theorem compress_oneBlock (f : Word) (x : Chain) {data : List Byte} (h : data.length = 64) :
    compress f x data = compress1 f x (padded 64 data) := by
  rw [compress, h]; rfl

/-- The carry test of the counter advance as a comparison of numbers (R87). -/
theorem counterAdvance_eq (ctr : Vector Word 2) :
    counterAdvance ctr =
      #v[ctr[0] + 64#32, if (ctr[0] + 64#32).toNat < 64 then ctr[1] + 1#32 else ctr[1]] := rfl

/-- The message words of a block are its bytes, four to a word, the lowest first (R89). -/
theorem messageWords_padded (data : List Byte) :
    messageWords (padded 64 data) = Vector.ofFn fun i : Fin 16 =>
      data.getD (4 * i.val + 3) 0 ++ data.getD (4 * i.val + 2) 0 ++ data.getD (4 * i.val + 1) 0 ++
        data.getD (4 * i.val) 0 := by
  have hword : messageWord (padded 64 data) = fun i : Fin 16 =>
      data.getD (4 * i.val + 3) 0 ++ data.getD (4 * i.val + 2) 0 ++ data.getD (4 * i.val + 1) 0 ++
        data.getD (4 * i.val) 0 := by
    funext i
    simp only [messageWord, leword, padded_get]
  rw [messageWords, hword]

/-- Settles O30: COMPRESS of one block is COMPRESS1 (`compress_oneBlock`), whose counter, message words, working-vector
load and ten rounds are written out by their lemmas. -/
theorem compressOneBlock : Obligations.CompressOneBlock := by
  intro s fin h ctr data hlen lo hi f m v
  rw [exec_compress fin h ctr hlen.ge (by rw [hlen]), compress_oneBlock _ _ hlen, compress1,
    messageWords_padded, tenRounds_eq_mixed, loadWork_eq, counterAdvance_eq]
  rfl

end Sys2Proof.Machine
end

section
/-! PROOFS. G (40_compression_core.md rules R83, R84, R86): its meaning, its inverse, and its lanes. -/

namespace Sys2Proof.Machine

/-! ### The eight assignments (R83, R84) -/

theorem exec_g {s : State} {run : CoreRun} (r : Fin 10) (k : Fin 8) (h : s.inside = some run) :
    exec (.g r k) s = .next { s with inside := some { run with v := gStep run.m r k run.v } } :=
  execG_eq r k h

/-- Settles O35: the meaning of G (`execG_eq`) is the eight assignments on the slot's four words
(`gStep_eq_gLines`). -/
theorem gIsTheEightAssignments : Obligations.GIsTheEightAssignments := by
  intro s run r k hrun q x y
  rw [exec_g r k hrun, gStep_eq_gLines]
  rfl

/-! ### G is a bijection (R83) -/

/-- Bit i of a rotation by n is bit i + n, modulo the word (R7). -/
theorem getLsbD_rotr32 (x : Word) {n i : Nat} (hn : n ≤ 32) (hi : i < 32) :
    (rotr32 x n).getLsbD i = x.getLsbD ((i + n) % 32) := by
  rw [rotr32, BitVec.getLsbD_or, BitVec.getLsbD_ushiftRight, BitVec.getLsbD_shiftLeft]
  by_cases hlow : i + n < 32
  · have hleft : i < 32 - n := by omega
    simp [Nat.mod_eq_of_lt hlow, Nat.add_comm n i, hleft]
  · have hright : 32 ≤ n + i := by omega
    have hwrap : (i + n) % 32 = i - (32 - n) := by omega
    have hleft : ¬i < 32 - n := by omega
    simp [hwrap, hi, hleft, BitVec.getLsbD_of_ge x (n + i) hright]

/-- A rotation is undone by the rotation by the rest of the word. -/
theorem rotr32_rotr32 (x : Word) {m n : Nat} (h : m + n = 32) : rotr32 (rotr32 x m) n = x := by
  apply BitVec.eq_of_getLsbD_eq
  intro i hi
  have hback : ((i + n) % 32 + m) % 32 = i := by omega
  rw [getLsbD_rotr32 _ (by omega) hi, getLsbD_rotr32 _ (by omega) (Nat.mod_lt _ (by decide)), hback]

/-- The first four assignments of G, with x = z, n = 16, m = 12, and its last four, with y = z, n = 8, m = 7. -/
def gHalf (z : Word) (n m : Nat) : Word × Word × Word × Word → Word × Word × Word × Word
  | (a, b, c, d) =>
    let a := a + b + z
    let d := rotr32 (d ^^^ a) n
    let c := c + d
    (a, rotr32 (b ^^^ c) m, c, d)

/-- The four assignments of `gHalf` undone, the last one first. -/
def gHalfInv (z : Word) (n m : Nat) : Word × Word × Word × Word → Word × Word × Word × Word
  | (a, b, c, d) =>
    let b := rotr32 b (32 - m) ^^^ c
    (a - z - b, b, c - d, rotr32 d (32 - n) ^^^ a)

theorem gWords_eq_gHalf (x y : Word) (q : Word × Word × Word × Word) :
    gWords q.1 q.2.1 q.2.2.1 q.2.2.2 x y = gHalf y 8 7 (gHalf x 16 12 q) := rfl

/-- Each of the four assignments can be undone, since the words it reads beside its own are still there. -/
theorem gHalf_bijective (z : Word) {n m : Nat} (hn : n ≤ 32) (hm : m ≤ 32) : Function.Bijective (gHalf z n m) := by
  refine Function.bijective_iff_has_inverse.mpr
    ⟨gHalfInv z n m, fun ⟨a, b, c, d⟩ => ?_, fun ⟨a, b, c, d⟩ => ?_⟩
  · simp (disch := omega) [gHalf, gHalfInv, rotr32_rotr32]
  · simp (disch := omega) [gHalf, gHalfInv, rotr32_rotr32]

/-- Settles O37: G is two bijections, its first and its last four assignments, one after the other. -/
theorem gIsABijection : Obligations.GIsABijection := by
  intro x y
  simp only [gWords_eq_gHalf]
  exact (gHalf_bijective y (by decide) (by decide)).comp (gHalf_bijective x (by decide) (by decide))

/-! ### Lanes (R86) -/

/-- The words of v that the G of a slot reads and writes. -/
def slotWords (k : Fin 8) : List (Fin 16) :=
  let q := slotIndices[k]
  [q.1, q.2.1, q.2.2.1, q.2.2.2]

/-- Two slots of the same half round have no word in common. -/
theorem slotWords_disjoint :
    ∀ {a b : Fin 8}, a.val / 4 = b.val / 4 → a ≠ b → ∀ i ∈ slotWords a, i ∉ slotWords b := by
  unfold slotWords; decide

/-- G writes the words of its slot only. -/
theorem gStep_get_of_notMem (m : Vector Word 16) (r : Fin 10) {k : Fin 8} (v : Vector Word 16) {i : Fin 16}
    (hi : i ∉ slotWords k) : (gStep m r k v)[i] = v[i] := by
  simp only [slotWords, Fin.getElem_fin, List.mem_cons, List.not_mem_nil, or_false, not_or] at hi
  obtain ⟨ha, hb, hc, hd⟩ := hi
  simp only [gStep, Fin.getElem_fin, Vector.getElem_set, Fin.val_ne_of_ne (Ne.symm ha), Fin.val_ne_of_ne (Ne.symm hb),
    Fin.val_ne_of_ne (Ne.symm hc), Fin.val_ne_of_ne (Ne.symm hd), if_false]

/-- The words of its slot after G are a function of those words before it. -/
theorem gStep_get_congr (m : Vector Word 16) (r : Fin 10) {k : Fin 8} {v w : Vector Word 16}
    (hvw : ∀ i ∈ slotWords k, v[i] = w[i]) {i : Fin 16} (hi : i ∈ slotWords k) :
    (gStep m r k v)[i] = (gStep m r k w)[i] := by
  have hsame := hvw i hi
  simp only [slotWords, List.forall_mem_cons] at hvw
  obtain ⟨ha, hb, hc, hd, -⟩ := hvw
  simp only [gStep, ha, hb, hc, hd]
  simp only [Fin.getElem_fin, Vector.getElem_set] at hsame ⊢
  rw [hsame]

/-- After the G of two slots without a common word, the words of the later slot are as if its G had been the only
one. -/
theorem gStep_gStep_get (m : Vector Word 16) (r : Fin 10) {a b : Fin 8} (v : Vector Word 16)
    (hab : ∀ i ∈ slotWords a, i ∉ slotWords b) {i : Fin 16} (hi : i ∈ slotWords a) :
    (gStep m r a (gStep m r b v))[i] = (gStep m r a v)[i] :=
  gStep_get_congr m r (fun _ hj => gStep_get_of_notMem m r v (hab _ hj)) hi

/-- Word by word: the first slot's words, the second slot's, and the others, which neither G writes. -/
theorem gStep_comm_of_disjoint (m : Vector Word 16) (r : Fin 10) {a b : Fin 8} (v : Vector Word 16)
    (hab : ∀ i ∈ slotWords a, i ∉ slotWords b) : gStep m r b (gStep m r a v) = gStep m r a (gStep m r b v) := by
  have hword : ∀ i : Fin 16, (gStep m r b (gStep m r a v))[i] = (gStep m r a (gStep m r b v))[i] := by
    intro i
    by_cases ha : i ∈ slotWords a
    · rw [gStep_get_of_notMem m r _ (hab i ha), gStep_gStep_get m r v hab ha]
    · rw [gStep_get_of_notMem m r (gStep m r b v) ha]
      by_cases hb : i ∈ slotWords b
      · exact gStep_gStep_get m r v (fun j hj hj' => hab j hj' hj) hb
      · rw [gStep_get_of_notMem m r _ hb, gStep_get_of_notMem m r _ hb, gStep_get_of_notMem m r _ ha]
  ext i hi : 1
  exact hword ⟨i, hi⟩

/-- Within a half round two G commute: they are one G taken twice, or their slots have no word in common. -/
theorem gStep_comm (m : Vector Word 16) (r : Fin 10) {a b : Fin 8} (hhalf : a.val / 4 = b.val / 4)
    (v : Vector Word 16) : gStep m r b (gStep m r a v) = gStep m r a (gStep m r b v) := by
  by_cases hne : a = b
  · rw [hne]
  · exact gStep_comm_of_disjoint m r v (slotWords_disjoint hhalf hne)

/-- Settles O38: either order leaves the same working vector (`gStep_comm`). -/
theorem lanesCommute : Obligations.LanesCommute := by
  intro s run r a b hrun hhalf
  refine ⟨_, _, _, exec_g r a hrun, exec_g r b rfl, exec_g r b hrun, ?_⟩
  rw [exec_g r a rfl, gStep_comm run.m r hhalf]

end Sys2Proof.Machine
end

section
/-! PROOFS. INIT, INIT128, INIT256 and RESET (41_streaming_digest.md rules R100 to R103, R108). -/

namespace Sys2Proof.Machine

/-! ### Construction (R101 to R103) -/

/-- A construction with a legal key completes in the post-construction state (R24); the ports and what is in progress
are kept. -/
theorem constructChecked_answers (z : Fin 33) {k : List Byte} (hk : k.length ≤ 32) (s : State) :
    Answers (constructChecked z k s) fun t =>
      t.PostConstruction z.val k ∧ Responds s t (.command 0#32 []) ∧
      t.inbox = s.inbox ∧ t.inside = s.inside ∧ t.shadow = s.shadow := by
  have hresponds : Responds s ((s.construct z k).respond .ok []) (.command 0#32 []) := by
    rw [Responds, State.respond_outbox, State.construct_outbox]; rfl
  exact ⟨_, constructChecked_eq z k s hk, construct_spec z k s hk, hresponds, by simp, by simp, by simp⟩

theorem execInit_illegalSize {z : Byte} (hz : ¬(1 ≤ z.toNat ∧ z.toNat ≤ 32)) (k : List Byte) (s : State) :
    execInit z k s = .next { s with outbox := s.outbox ++ [.command 6#32 []] } := by
  rw [execInit, dif_neg hz]; rfl

theorem execInit128_noKey (s : State) :
    execInit128 [] s = .next { s with outbox := s.outbox ++ [.command 2#32 []] } := rfl

/-- With a key INIT128 is the construction of INIT 16 (R102). -/
theorem execInit128_eq {k : List Byte} (hk : 1 ≤ k.length) (s : State) :
    execInit128 k s = constructChecked 16 k s := by
  rw [execInit128, if_neg (by omega)]

/-- Settles O11: the size test comes first, then the construction's key test. -/
theorem initConstructsADigest : Obligations.InitConstructsADigest := by
  intro s z k
  refine ⟨fun hz => execInit_illegalSize hz k s, fun hlo hhi hk => ?_, fun hlo hhi hk => ?_⟩
  · rw [exec, execInit_eq z k s ⟨hlo, hhi⟩]
    exact constructChecked_long _ k s hk
  · rw [exec, execInit_eq z k s ⟨hlo, hhi⟩]
    exact constructChecked_answers _ hk s

/-- Settles O12: INIT128 tests for a key, and is then the construction of size 16 (`execInit128_eq`). -/
theorem init128RequiresAKey : Obligations.Init128RequiresAKey := by
  intro s k
  refine ⟨fun hk => ?_, fun hk => ?_, fun hpos hk => ⟨?_, ?_⟩⟩
  · rw [exec, hk, execInit128_noKey]
  · rw [exec, execInit128_eq (by omega)]
    exact constructChecked_long 16 k s hk
  · exact (execInit128_eq hpos s).trans (execInit_eq 16 k s (by decide)).symm
  · rw [exec, execInit128_eq hpos]
    exact constructChecked_answers 16 hk s

/-- Settles O13: INIT256 is the construction of size 32. -/
theorem init256IsInit32 : Obligations.Init256IsInit32 := by
  intro s k
  exact ⟨(execInit_eq 32 k s (by decide)).symm, fun hk => constructChecked_long 32 k s hk,
    fun hk => constructChecked_answers 32 hk s⟩

/-! ### RESET (R100, R108) -/

theorem execReset_eq {s : State} (h : s.constructed = true) : execReset s = .next (s.seed.respond .ok []) := by
  simp only [execReset, whenConstructed, h, if_true, succeed]

/-- SEED's frame: only the chain and the pending buffer change (R100). -/
theorem seed_frame (s : State) :
    s.seed = { s with h := s.seed.h, c := #v[0, 0], block := s.seed.block, offset := s.seed.offset } := by
  unfold State.seed
  dsimp only
  split <;> rfl

/-- SEED reads the size, the key length and, when keyed, the key, and nothing else (R24, R100). -/
theorem seed_agree {s₁ s₂ : State} (hsize : s₁.size = s₂.size) (hkeylen : s₁.keylen = s₂.keylen)
    (hkey : s₁.key = s₂.key) :
    s₁.seed.h = s₂.seed.h ∧ s₁.seed.offset = s₂.seed.offset ∧
      (0 < s₁.keylen.val → s₁.seed.block = s₂.seed.block) := by
  refine ⟨by rw [seed_h, seed_h, hsize, hkeylen], by rw [seed_offset, seed_offset, hkeylen], fun hpos => ?_⟩
  ext i hi : 1
  rw [seed_block_keyed s₁ hpos i hi, seed_block_keyed s₂ (hkeylen ▸ hpos) i hi, hkey]

/-- Settles O25: RESET is SEED (`execReset_eq`), whose frame is `seed_frame`. -/
theorem resetRestoresTheSeed : Obligations.ResetRestoresTheSeed := by
  intro s hc
  refine ⟨_, execReset_eq hc, congrArg (State.respond .ok []) (seed_frame s), ?_, fun i hi => ?_,
    fun hkeylen => ?_, fun hkeylen => ?_⟩
  · rw [State.respond_h, seed_h, parameterWord_eq]; rfl
  · have hne : 0 ≠ i.val := fun h => hi (Fin.ext h.symm)
    simp [seed_h, hne]
  · rw [State.respond_offset, State.respond_block, seed_offset, if_pos hkeylen]
    exact ⟨rfl, seed_block_unkeyed s hkeylen⟩
  · rw [State.respond_offset, State.respond_block, seed_offset, if_neg (by omega)]
    exact ⟨rfl, fun i => seed_block_keyed s hkeylen i.val i.isLt⟩

/-- Settles O26: WRITE keeps the configuration, which is all that SEED reads (`seed_agree`). -/
theorem resetUndoesWrites : Obligations.ResetUndoesWrites := by
  intro s z k P hlo hhi hk
  let size : Fin 33 := ⟨z.toNat, Nat.lt_succ_of_le hhi⟩
  let t := (s.construct size k).respond .ok []
  let u := (t.written P).respond .ok []
  have hinit : exec (.init z k) s = .next t :=
    (execInit_eq z k s ⟨hlo, hhi⟩).trans (constructChecked_eq size k s hk)
  have hkeylen : u.keylen.val = k.length := by
    rw [← construct_keylen_val size k s hk]; simp [u, t]
  obtain ⟨hh, hoffset, hblock⟩ :=
    seed_agree (s₁ := u) (s₂ := s.configure size k) (by simp [u, t]) (by simp [u, t]) (by simp [u, t])
  refine ⟨t, u, _, hinit, execWrite_eq (by simp [t]) P, execReset_eq (by simp [u, t]), hh, by simp [t], hoffset,
    by simp [u], by simp [u], by simp [u], by simp [u], fun hne => hblock ?_⟩
  rw [hkeylen]
  exact List.length_pos_iff.mpr hne

end Sys2Proof.Machine
end

section
/-! PROOFS. The counter as a function of the bytes counted, and SUM (10_state.md rule R11; 30_encoding.md rule R55;
41_streaming_digest.md rules R105 to R107). -/

namespace Sys2Proof.Machine

/-! ### WRITE on the counter -/

/-- Settles O16: the interior blocks of the buffered bytes and the payload are counted (`counterValue_written`). -/
theorem writeBlockCount : Obligations.WriteBlockCount := fun s P hc =>
  ⟨_, execWrite_eq hc P, counterValue_written s P⟩

/-! ### SUM -/

/-- SUM's correction, then the advance of its one block: back by 64 - o, forward by 64 (R106, R87). -/
theorem counterValue_advance_correct (ctr : Vector Word 2) {o : Nat} (ho : o ≤ 64) :
    counterValue (counterAdvance (counterCorrect ctr (64 - o))) = (counterValue ctr + o) % 2 ^ 64 := by
  rw [counterValue_advance, counterValue_correct ctr (64 - o) (by omega)]
  omega

/-- Settles O20: `counterValue_advance_correct`. -/
theorem sumCountsTheBufferedBytes : Obligations.SumCountsTheBufferedBytes := fun ctr _ ho =>
  counterValue_advance_correct ctr ho

/-- SUM's header: the digest's length in QLEN, status OK (R55). -/
theorem responseHeader_sumDigest (s : State) :
    responseHeader .ok (sumDigest s) = BitVec.ofNat 32 (65536 * s.size.val) := by
  have hsize := s.size.isLt
  apply BitVec.eq_of_toNat_eq
  rw [responseHeader_toNat .ok _ (by rw [sumDigest_length]; omega), sumDigest_length, BitVec.toNat_ofNat,
    Nat.mod_eq_of_lt (by omega)]
  exact Nat.zero_add _

theorem sum_answers_digest {s : State} (h : s.constructed = true) :
    Answers (exec .sum s) fun t =>
      Responds s t (.command (BitVec.ofNat 32 (65536 * s.size.val)) (sumDigest s)) :=
  responseHeader_sumDigest s ▸ sum_answers h

/-- The borrow test of SUM's correction as a comparison of numbers (R106). -/
theorem counterCorrect_eq (ctr : Vector Word 2) {rem : Nat} (h : rem ≤ 64) :
    counterCorrect ctr rem =
      #v[ctr[0] - BitVec.ofNat 32 rem, if ctr[0].toNat < rem then ctr[1] - 1#32 else ctr[1]] := by
  have hrem : (BitVec.ofNat 32 rem).toNat = rem := by rw [BitVec.toNat_ofNat]; omega
  simp only [counterCorrect, BitVec.lt_def, hrem]

/-- SUM's copy of the buffer: the buffered bytes, then zeros (R106). -/
theorem padded_buffered (s : State) :
    padded 64 s.buffered = Vector.ofFn fun k : Fin 64 => if k.val < s.offset.val then s.block[k] else 0#8 := by
  ext k hk : 1
  rw [padded_get, Vector.getElem_ofFn, List.getD_eq_getElem?_getD, State.buffered, List.getElem?_take]
  split
  · simp [hk]
  · rfl

/-- Settles O19: SUM's digest (`execSum_eq`) with its header, its corrected counter and its padded buffer written
out. -/
theorem sumFinalisesACopy : Obligations.SumFinalisesACopy := by
  intro s hc rem cs bs x
  have hx : sumDigest s = (x.h.toList.flatMap le32).take s.size.val := by
    rw [sumDigest, counterCorrect_eq s.c (Nat.sub_le 64 _), padded_buffered]
    rfl
  rw [exec, execSum_eq s hc, State.respond, responseHeader_sumDigest, hx]
  rfl

/-- Settles O21: the response is SUM's header and digest (`sum_answers_digest`), of length size
(`sumDigest_length`). -/
theorem digestLengthIsTheOutputSize : Obligations.DigestLengthIsTheOutputSize := by
  intro s hc
  refine ⟨_, _, sum_answers_digest hc, sumDigest_length s, ?_⟩
  have hsize := s.size.isLt
  rw [BitVec.toNat_ofNat, Nat.mod_eq_of_lt (by omega)]

/-- Settles O22: SUM changes no register that it reads. -/
theorem sumTwiceGivesTheSameDigest : Obligations.SumTwiceGivesTheSameDigest := by
  intro s hc
  have hdigest : sumDigest (s.closeShadow.respond .ok (sumDigest s)) = sumDigest s := rfl
  refine ⟨_, _, execSum_eq s hc, rfl, ?_⟩
  rw [← hdigest]
  exact sum_answers hc

end Sys2Proof.Machine
end

section
/-! PROOFS. A digest as a function of the bytes fed to it: chunking, and the hash of the message
(41_streaming_digest.md rules R104 to R107). -/

namespace Sys2Proof.Machine

/-! ### The bytes fed so far (R104, R105) -/

/-- The engine started from chain x and was fed the bytes T, in whatever chunks: all whole blocks of T but the last
1 .. 64 bytes are compressed, and the rest is buffered. -/
structure Fed (x : Chain) (T : List Byte) (t : State) : Prop where
  chain : t.chain = compressBlocks 0#32 (interiorBlocks T.length) x T
  buffered : t.buffered = T.drop (64 * interiorBlocks T.length)

/-- An engine has been fed, from its own chain, the bytes it buffers. -/
theorem fed_buffered (s : State) : Fed s.chain s.buffered s := by
  have hoffset := s.offset.isLt
  have hnone : interiorBlocks s.buffered.length = 0 := interiorBlocks_small (by rw [buffered_length]; omega)
  exact ⟨by rw [hnone]; rfl, by rw [hnone]; rfl⟩

/-- The interior blocks of a + b bytes: those of the first a, then those of what they leave and the b others. -/
theorem interiorBlocks_add (a b : Nat) :
    interiorBlocks (a + b) = interiorBlocks a + interiorBlocks (a - 64 * interiorBlocks a + b) := by
  unfold interiorBlocks
  omega

/-- WRITE appends its payload to the bytes fed. -/
theorem Fed.written {x : Chain} {T : List Byte} {s : State} (h : Fed x T s) (P : List Byte) :
    Fed x (T ++ P) (s.written P) := by
  obtain ⟨hchain, -, hbuffered, -⟩ := written_spec s P
  have hle : 64 * interiorBlocks T.length ≤ T.length := (interiorBlocks_rest T.length).2
  have hrest : s.buffered ++ P = (T ++ P).drop (64 * interiorBlocks T.length) := by
    rw [h.buffered, List.drop_append_of_le_length hle]
  have hsplit : interiorBlocks (T ++ P).length =
      interiorBlocks T.length + interiorBlocks (s.buffered ++ P).length := by
    rw [h.buffered, List.length_append, List.length_append, List.length_drop, interiorBlocks_add]
  constructor
  · rw [hchain, h.chain, hsplit, compressBlocks_add, compressBlocks_append _ _ _ _ _ hle, ← hrest]
  · rw [hbuffered, hsplit, hrest, List.drop_drop, Nat.mul_add]

/-- A response feeds nothing. -/
theorem Fed.respond {x : Chain} {T : List Byte} {s : State} (h : Fed x T s) {S : Status} {Q : List Byte} :
    Fed x T (s.respond S Q) :=
  ⟨h.chain, h.buffered⟩

/-- WRITEs in turn complete, and append all their payloads to the bytes fed (R105 a). -/
theorem writeAll_fed (chunks : List (List Byte)) {x : Chain} {T : List Byte} {s : State}
    (hc : s.constructed = true) (h : Fed x T s) :
    ∃ u, writeAll chunks s = some u ∧ Fed x (T ++ chunks.flatten) u ∧ u.constructed = true ∧ u.size = s.size := by
  induction chunks generalizing T s with
  | nil => exact ⟨s, rfl, by rwa [List.flatten_nil, List.append_nil], hc, rfl⟩
  | cons A rest ih =>
    obtain ⟨u, hu, hufed, huc, husize⟩ := ih (by simpa using hc) (h.written A).respond
    refine ⟨u, ?_, ?_, huc, husize.trans (by simp)⟩
    · rw [writeAll, exec, execWrite_eq hc A]
      exact hu
    · rwa [List.flatten_cons, ← List.append_assoc]

/-- The bytes fed fix the chain and the pending buffer. -/
theorem Fed.agree {x : Chain} {T : List Byte} {u w : State} (hu : Fed x T u) (hw : Fed x T w) :
    u.h = w.h ∧ u.c = w.c ∧ u.offset = w.offset ∧ u.buffered = w.buffered := by
  have hchain : u.chain = w.chain := hu.chain.trans hw.chain.symm
  have hbuffered : u.buffered = w.buffered := hu.buffered.trans hw.buffered.symm
  have hoffset : u.offset.val = w.offset.val := by rw [← buffered_length, hbuffered, buffered_length]
  exact ⟨congrArg Chain.h hchain, congrArg Chain.c hchain, Fin.ext hoffset, hbuffered⟩

/-- Settles O18: either way the engine was fed the same bytes (`writeAll_fed`, `Fed.written`), which fix all that SUM
reads (`Fed.agree`). -/
theorem chunkingInvariance : Obligations.ChunkingInvariance := by
  intro s chunks hc
  obtain ⟨u, hu, hufed, huc, husize⟩ := writeAll_fed chunks hc (fed_buffered s)
  let w := (s.written chunks.flatten).respond .ok []
  have hwfed : Fed s.chain (s.buffered ++ chunks.flatten) w := ((fed_buffered s).written chunks.flatten).respond
  obtain ⟨hh, hctr, hoffset, hbuffered⟩ := hufed.agree hwfed
  have hsize : u.size = w.size := husize.trans (by simp [w])
  have hdigest : sumDigest u = sumDigest w := by simp only [sumDigest, hh, hctr, hsize, hoffset, hbuffered]
  refine ⟨u, w, hu, execWrite_eq hc _, hh, hctr, hoffset, hbuffered, _, sum_answers huc, ?_⟩
  rw [hdigest]
  exact sum_answers (by simpa [w] using hc)

/-! ### The counter words of a byte count (R11, R88) -/

/-- The counter words that hold the count t, modulo 2^64. -/
def counterOf (t : Nat) : Vector Word 2 := #v[BitVec.ofNat 32 t, BitVec.ofNat 32 (t / 2 ^ 32)]

theorem eq_counterOf {ctr : Vector Word 2} {t : Nat} (h : counterValue ctr = t % 2 ^ 64) : ctr = counterOf t := by
  have h0 := ctr[0].isLt
  have h1 := ctr[1].isLt
  unfold counterValue at h
  have hlow : ctr[0] = BitVec.ofNat 32 t := BitVec.eq_of_toNat_eq (by rw [BitVec.toNat_ofNat]; omega)
  have hhigh : ctr[1] = BitVec.ofNat 32 (t / 2 ^ 32) := BitVec.eq_of_toNat_eq (by rw [BitVec.toNat_ofNat]; omega)
  ext i hi : 1
  obtain rfl | rfl : i = 0 ∨ i = 1 := by omega
  · exact hlow
  · exact hhigh

theorem counterValue_counterOf (t : Nat) : counterValue (counterOf t) = t % 2 ^ 64 := by
  show (BitVec.ofNat 32 t).toNat + 2 ^ 32 * (BitVec.ofNat 32 (t / 2 ^ 32)).toNat = _
  rw [BitVec.toNat_ofNat, BitVec.toNat_ofNat]
  omega

theorem counterAdvance_counterOf (t : Nat) : counterAdvance (counterOf t) = counterOf (t + 64) :=
  eq_counterOf (by rw [counterValue_advance, counterValue_counterOf]; omega)

theorem compressBlocks_counterOf (f : Word) (n : Nat) (h : Vector Word 8) (t : Nat) (data : List Byte) :
    (compressBlocks f n { h := h, c := counterOf t } data).c = counterOf (t + 64 * n) :=
  eq_counterOf (by rw [counterValue_compressBlocks, counterValue_counterOf]; omega)

/-! ### The hash, written without the engine -/

theorem iv6_flag (last : Bool) : iv[6] ^^^ finalizeFlag last = if last then ~~~iv[6] else iv[6] := by
  cases last <;> rfl

/-- COMPRESS1 is one block of the hash, with the number of bytes that its counter advances to (R87 to R91). -/
theorem compress1_eq_hashBlock (last : Bool) (x : Chain) (blk : List Byte) {t : Nat}
    (h : counterAdvance x.c = counterOf t) :
    (compress1 (finalizeFlag last) x (padded 64 blk)).h = hashBlock x.h blk t last := by
  rw [compress1, h, tenRounds_eq_mixed, messageWords_padded, loadWork_eq, iv6_flag]
  rfl

/-- The interior blocks of the hash are COMPRESS with the flag 0, and its last block has the rest of the bytes. -/
theorem hashBlocks_eq (n : Nat) (h : Vector Word 8) (t : Nat) {T : List Byte} (hn : 64 * n ≤ T.length) :
    hashBlocks n h t T =
      hashBlock (compressBlocks 0#32 n { h := h, c := counterOf t } T).h (T.drop (64 * n)) (t + T.length) true := by
  induction n generalizing h t T with
  | zero => rfl
  | succ n ih =>
    have hblock : compress1 0#32 { h := h, c := counterOf t } (padded 64 T) =
        { h := hashBlock h T (t + 64) false, c := counterOf (t + 64) } := by
      rw [← compress1_eq_hashBlock false { h := h, c := counterOf t } T (counterAdvance_counterOf t),
        ← counterAdvance_counterOf t]
      rfl
    have hlen : t + 64 + (T.drop 64).length = t + T.length := by rw [List.length_drop]; omega
    have hbytes : 64 * (n + 1) = 64 + 64 * n := by omega
    rw [hashBlocks, ih _ _ (by rw [List.length_drop]; omega), compressBlocks, hblock, hlen, List.drop_drop, hbytes]

/-- SUM on an engine fed T from hash words h and counter 0 answers the hash of T from h (R106). -/
theorem Fed.sumDigest_eq {h : Vector Word 8} {T : List Byte} {u : State}
    (hfed : Fed { h := h, c := counterOf 0 } T u) :
    sumDigest u = digestBytes (hashBlocks (interiorBlocks T.length) h 0 T) u.size.val := by
  have hle : 64 * interiorBlocks T.length ≤ T.length := (interiorBlocks_rest T.length).2
  have ho : u.offset.val ≤ 64 := Nat.le_of_lt_succ u.offset.isLt
  have hh : u.h = _ := congrArg Chain.h hfed.chain
  have hctr : u.c = counterOf (0 + 64 * interiorBlocks T.length) :=
    (congrArg Chain.c hfed.chain).trans (compressBlocks_counterOf _ _ _ _ _)
  have hoffset : u.offset.val = T.length - 64 * interiorBlocks T.length := by
    rw [← buffered_length, hfed.buffered, List.length_drop]
  have hcount : counterAdvance (counterCorrect u.c (64 - u.offset.val)) = counterOf (0 + T.length) := by
    apply eq_counterOf
    rw [counterValue_advance_correct _ ho, hctr, counterValue_counterOf]
    omega
  have hlast := compress1_eq_hashBlock true { h := u.h, c := counterCorrect u.c (64 - u.offset.val) } u.buffered hcount
  rw [hashBlocks_eq _ _ _ hle, ← hh, ← hfed.buffered, ← hlast]
  rfl

/-! ### The engine after INIT (R100, R101) -/

/-- The key block: the key and zeros, or nothing when there is no key (R100). -/
def keyBlock (k : List Byte) : List Byte := if k = [] then [] else k ++ zeros (64 - k.length)

/-- The hash words after the construction of size z with a key of n bytes (R100, R60). -/
def seedWords (z n : Nat) : Vector Word 8 :=
  iv.set 0 (iv[0] ^^^ (BitVec.ofNat 32 z ||| (BitVec.ofNat 32 n <<< 8) ||| 0x01010000#32))

theorem getD_append_zeros (k : List Byte) (n i : Nat) : (k ++ zeros n).getD i 0 = k.getD i 0 := by
  simp only [List.getD_eq_getElem?_getD, List.getElem?_append, zeros, List.getElem?_replicate]
  split
  · rfl
  · rename_i h
    rw [List.getElem?_eq_none (Nat.le_of_not_lt h)]
    split <;> rfl

/-- In the post-construction state the buffer holds the key block. -/
theorem postConstruction_buffered {z : Nat} {k : List Byte} {t : State} (hk : k.length ≤ 32)
    (h : t.PostConstruction z k) : t.buffered = keyBlock k := by
  obtain ⟨-, -, -, hblock, hoffset, -⟩ := h
  by_cases hnil : k = []
  · rw [State.buffered, hoffset, keyBlock, if_pos hnil, if_pos hnil, List.take_zero]
  · have hlen : (k ++ zeros (64 - k.length)).length = 64 := by
      rw [List.length_append, zeros, List.length_replicate]; omega
    have hreg : t.block = padded 64 (k ++ zeros (64 - k.length)) := by
      ext i hi : 1
      rw [padded_get, getD_append_zeros]
      exact hblock ⟨i, hi⟩
    have hfull : t.block.toList = k ++ zeros (64 - k.length) := by
      rw [hreg]
      exact bufferWrite_toList_full (Vector.replicate 64 0) 0 _ (by rw [hlen])
    rw [State.buffered, hoffset, keyBlock, if_neg hnil, if_neg hnil, hfull]
    exact List.take_of_length_le hlen.le

theorem postConstruction_chain {z : Nat} {k : List Byte} {t : State} (h : t.PostConstruction z k) :
    t.chain = { h := seedWords z k.length, c := counterOf 0 } := by
  obtain ⟨hzero, hothers, hctr, -⟩ := h
  have hh : t.h = seedWords z k.length := by
    ext i hi : 1
    by_cases hi0 : i = 0
    · subst hi0
      rw [seedWords, Vector.getElem_set_self]
      exact hzero
    · have hne : (⟨i, hi⟩ : Fin 8) ≠ 0 := fun h => hi0 (congrArg Fin.val h)
      simpa [seedWords, Ne.symm hi0] using hothers ⟨i, hi⟩ hne
  rw [State.chain, hh, hctr]
  rfl

/-- An engine after INIT has been fed its key block. -/
theorem postConstruction_fed {z : Nat} {k : List Byte} {t : State} (hk : k.length ≤ 32)
    (h : t.PostConstruction z k) : Fed { h := seedWords z k.length, c := counterOf 0 } (keyBlock k) t := by
  rw [← postConstruction_chain h, ← postConstruction_buffered hk h]
  exact fed_buffered t

/-- Settles O24: the engine has been fed the key block (`postConstruction_fed`) and then the message (`writeAll_fed`),
whose hash SUM answers (`Fed.sumDigest_eq`). -/
theorem digestIsTheHashOfTheMessage : Obligations.DigestIsTheHashOfTheMessage := by
  intro s z k chunks hlo hhi hk
  obtain ⟨t, hinit, hpost, -⟩ := (initConstructsADigest s z k).2.2 hlo hhi hk
  have hfed := postConstruction_fed hk hpost
  obtain ⟨-, -, -, -, -, hsize, -, -, hc⟩ := hpost
  obtain ⟨u, hu, hufed, huc, husize⟩ := writeAll_fed chunks hc hfed
  have huz : u.size.val = z.toNat := by rw [husize, hsize]
  have hanswers := sum_answers_digest huc
  rw [hufed.sumDigest_eq, huz] at hanswers
  exact ⟨t, u, hinit, hu, hanswers⟩

end Sys2Proof.Machine
end

section
/-! PROOFS. MARSHAL, UNMARSHAL and the record between them (30_encoding.md rule R61; 42_state_serialization.md rules
R120 to R122). -/

namespace Sys2Proof.Machine

/-! ### The bytes of a record (R61) -/

@[simp] theorem magic_length : magic.length = 3 := rfl

/-- A register of words as a field of the record: big-endian, one word after the other (R33, R61). -/
def wordBytes {n : Nat} (v : Vector Word n) : List Byte := v.toList.flatMap be32

@[simp] theorem wordBytes_length {n : Nat} (v : Vector Word n) : (wordBytes v).length = 4 * n := by
  simp [wordBytes, List.length_flatMap, be32, Nat.mul_comm]

theorem flatMap_be32_getD (ws : List Word) (i : Nat) (hi : i < ws.length) (j : Fin 4) :
    (ws.flatMap be32).getD (4 * i + j.val) 0 = ws[i].extractLsb' (8 * (3 - j.val)) 8 := by
  induction ws generalizing i with
  | nil => cases hi
  | cons w ws ih =>
    cases i with
    | zero => fin_cases j <;> rfl
    | succ i =>
      have hskip : 4 * (i + 1) + j.val = 4 * i + j.val + 4 := by omega
      rw [hskip]
      exact ih i (Nat.lt_of_succ_lt_succ hi)

/-- Byte j of word i, the most significant byte first (R33). -/
theorem wordBytes_getD {n : Nat} (v : Vector Word n) (i : Fin n) (j : Fin 4) :
    (wordBytes v).getD (4 * i.val + j.val) 0 = v[i].extractLsb' (8 * (3 - j.val)) 8 :=
  flatMap_be32_getD v.toList i.val (by simp) j

theorem record_eq (s : State) :
    s.record = magic ++ wordBytes s.h ++ wordBytes s.c ++ [BitVec.ofNat 8 s.size.val] ++ s.block.toList ++
      [BitVec.ofNat 8 s.offset.val] := rfl

/-- A byte of the field `X` that stands in `Q` from byte `k` on. -/
theorem getD_of_prefix {A X Q : List Byte} (h : A ++ X <+: Q) {k : Nat} (hk : A.length = k) {i : Nat}
    (hi : i < X.length) : Q.getD (k + i) 0 = X.getD i 0 := by
  obtain ⟨Y, rfl⟩ := h
  have hlt : k + i < (A ++ X).length := by rw [List.length_append]; omega
  rw [List.getD_append _ _ _ _ hlt, List.getD_append_right _ _ _ _ (by omega), hk, Nat.add_sub_cancel_left]

theorem record_hash (s : State) (i : Fin 8) (j : Fin 4) :
    s.record.getD (3 + 4 * i.val + j.val) 0 = s.h[i].extractLsb' (8 * (3 - j.val)) 8 := by
  have hfield : magic ++ wordBytes s.h <+: s.record := by simp [record_eq]
  rw [Nat.add_assoc, getD_of_prefix hfield (by simp) (by simp; omega), wordBytes_getD]

theorem record_counter (s : State) (i : Fin 2) (j : Fin 4) :
    s.record.getD (35 + 4 * i.val + j.val) 0 = s.c[i].extractLsb' (8 * (3 - j.val)) 8 := by
  have hfield : (magic ++ wordBytes s.h) ++ wordBytes s.c <+: s.record := by simp [record_eq]
  rw [Nat.add_assoc, getD_of_prefix hfield (by simp) (by simp; omega), wordBytes_getD]

theorem record_size (s : State) : (s.record.getD 43 0).toNat = s.size.val := by
  have hfield : (magic ++ wordBytes s.h ++ wordBytes s.c) ++ [BitVec.ofNat 8 s.size.val] <+: s.record := by
    simp [record_eq]
  have hbyte : s.record.getD 43 0 = BitVec.ofNat 8 s.size.val :=
    getD_of_prefix hfield (k := 43) (i := 0) (by simp) (by simp)
  rw [hbyte, BitVec.toNat_ofNat, Nat.mod_eq_of_lt (by omega)]

theorem record_block (s : State) (i : Fin 64) : s.record.getD (44 + i.val) 0 = s.block[i] := by
  have hfield : (magic ++ wordBytes s.h ++ wordBytes s.c ++ [BitVec.ofNat 8 s.size.val]) ++ s.block.toList <+:
      s.record := by simp [record_eq]
  rw [getD_of_prefix hfield (by simp) (by simp)]
  simp [List.getD_eq_getElem?_getD]

theorem record_offset (s : State) : (s.record.getD 108 0).toNat = s.offset.val := by
  have hfield : (magic ++ wordBytes s.h ++ wordBytes s.c ++ [BitVec.ofNat 8 s.size.val] ++ s.block.toList) ++
      [BitVec.ofNat 8 s.offset.val] <+: s.record := by simp [record_eq]
  have hbyte : s.record.getD 108 0 = BitVec.ofNat 8 s.offset.val :=
    getD_of_prefix hfield (k := 108) (i := 0) (by simp) (by simp)
  rw [hbyte, BitVec.toNat_ofNat, Nat.mod_eq_of_lt (by omega)]

/-! ### MARSHAL (R120) -/

theorem execMarshal_keyed {s : State} (hc : s.constructed = true) (hk : 0 < s.keylen.val) :
    execMarshal s = raise .cannotMarshalKeyedState s := by
  rw [execMarshal, whenConstructed, if_pos hc, if_pos ((keyed_iff s).mpr hk)]

theorem execMarshal_unkeyed {s : State} (hc : s.constructed = true) (hk : s.keylen.val = 0) :
    execMarshal s = succeed s.record s := by
  have hunkeyed : ¬s.keyed = true := by rw [keyed_iff]; omega
  rw [execMarshal, whenConstructed, if_pos hc, if_neg hunkeyed]

/-- Settles O27: MARSHAL tests for a key and answers the record, whose bytes are read off field by field. -/
theorem marshalGivesTheRecord : Obligations.MarshalGivesTheRecord := by
  intro s hc
  refine ⟨fun hk => execMarshal_keyed hc hk, fun hk => ?_⟩
  have hheader : responseHeader .ok s.record = 0x006D0000#32 := by rw [responseHeader, record_length]; rfl
  have hanswers : exec .marshal s = .next { s with outbox := s.outbox ++ [.command 0x006D0000#32 s.record] } := by
    rw [exec, execMarshal_unkeyed hc hk, succeed, State.respond, hheader]
  exact ⟨s.record, hanswers, record_length s, rfl, record_hash s, record_counter s, record_size s,
    record_block s, record_offset s⟩

/-! ### UNMARSHAL (R121) -/

theorem execUnmarshal_badTag {P : List Byte} (htag : P.take 3 ≠ magic) (s : State) :
    execUnmarshal P s = raise .invalidStateIdentifier s := by
  rw [execUnmarshal, if_pos (.inr htag)]

/-- A payload that begins with the tag passes the first test. -/
theorem not_badTag {P : List Byte} (htag : P.take 3 = magic) : ¬(P.length < 3 ∨ P.take 3 ≠ magic) := by
  have hlen : (P.take 3).length = 3 := by rw [htag, magic_length]
  rw [List.length_take] at hlen
  rintro (hshort | hne)
  · omega
  · exact hne htag

theorem execUnmarshal_badSize {P : List Byte} (htag : P.take 3 = magic) (hlen : P.length ≠ 109) (s : State) :
    execUnmarshal P s = raise .invalidStateSize s := by
  rw [execUnmarshal, if_neg (not_badTag htag), if_pos hlen]

theorem execUnmarshal_badField {P : List Byte} (htag : P.take 3 = magic) (hlen : P.length = 109)
    (hfield : ¬((1 ≤ (P.getD 43 0).toNat ∧ (P.getD 43 0).toNat ≤ 32) ∧ (P.getD 108 0).toNat ≤ 64))
    (s : State) :
    execUnmarshal P s = raise .invalidStateField s := by
  rw [execUnmarshal, if_neg (not_badTag htag), if_neg (not_not.mpr hlen), dif_neg hfield]

/-- A record with the size byte z and the offset byte o passes every test and is loaded. -/
theorem execUnmarshal_good {P : List Byte} {z : Fin 33} {o : Fin 65} (htag : P.take 3 = magic) (hlen : P.length = 109)
    (hz : (P.getD 43 0).toNat = z.val) (ho : (P.getD 108 0).toNat = o.val) (hlo : 1 ≤ z.val) (s : State) :
    execUnmarshal P s = succeed [] (s.restored P z o) := by
  rw [execUnmarshal, if_neg (not_badTag htag), if_neg (not_not.mpr hlen), dif_pos (by omega)]
  simp only [hz, ho]

/-- A loaded hash word is made of its four bytes (R33). -/
theorem restored_hash (P : List Byte) (z : Fin 33) (o : Fin 65) (s : State) (i : Fin 8) :
    (s.restored P z o).h[i] =
      P.getD (3 + 4 * i.val) 0 ++ P.getD (4 + 4 * i.val) 0 ++ P.getD (5 + 4 * i.val) 0 ++
        P.getD (6 + 4 * i.val) 0 := by
  simp only [State.restored_h, Fin.getElem_fin, Vector.getElem_ofFn, bewordAt, beword, Nat.add_right_comm 3]

theorem padded_drop_get {n : Nat} (P : List Byte) (m i : Nat) (hi : i < n) :
    (padded n (P.drop m))[i] = P.getD (m + i) 0 := by
  rw [padded_get, List.getD_eq_getElem?_getD, List.getElem?_drop, List.getD_eq_getElem?_getD]

/-- Settles O28: the three tests in order, then the registers the record loads. -/
theorem unmarshalLoadsTheRecord : Obligations.UnmarshalLoadsTheRecord := by
  intro s P
  refine ⟨fun htag => execUnmarshal_badTag htag s, fun htag hlen => execUnmarshal_badSize htag hlen s,
    fun htag hlen hfield => execUnmarshal_badField htag hlen (by omega) s, fun htag hlen hlo hhi ho => ?_⟩
  let z : Fin 33 := ⟨(P.getD 43 0).toNat, Nat.lt_succ_of_le hhi⟩
  let o : Fin 65 := ⟨(P.getD 108 0).toNat, Nat.lt_succ_of_le ho⟩
  have hloads : exec (.unmarshal P) s = .next ((s.restored P z o).respond .ok []) :=
    execUnmarshal_good htag hlen rfl rfl hlo s
  have hblock : ∀ i : Fin 64, (s.restored P z o).block[i] = P.getD (44 + i.val) 0 :=
    fun i => padded_drop_get P 44 i.val i.isLt
  exact ⟨_, hloads, rfl, restored_hash P z o s, rfl, rfl, rfl, hblock, rfl, rfl, rfl, rfl, rfl, rfl, rfl⟩

/-! ### The round trip (R122) -/

/-- A word whose four bytes stand in a payload from byte k on, the most significant first, is read there (R33). -/
theorem bewordAt_of_bytes {P : List Byte} {k : Nat} {w : Word}
    (h : ∀ j : Fin 4, P.getD (k + j.val) 0 = w.extractLsb' (8 * (3 - j.val)) 8) : bewordAt P k = w := by
  have h0 : P.getD k 0 = w.extractLsb' 24 8 := h 0
  have h1 : P.getD (k + 1) 0 = w.extractLsb' 16 8 := h 1
  have h2 : P.getD (k + 2) 0 = w.extractLsb' 8 8 := h 2
  have h3 : P.getD (k + 3) 0 = w.extractLsb' 0 8 := h 3
  rw [bewordAt, h0, h1, h2, h3]
  exact word_of_bytes w

/-- Every register that a record holds is given back (R122). -/
theorem restored_record (s₁ s₂ : State) :
    s₂.restored s₁.record s₁.size s₁.offset =
      { s₂ with
        h := s₁.h, c := s₁.c, block := s₁.block, offset := s₁.offset, size := s₁.size
        keylen := 0, key := Vector.replicate 32 0, constructed := true } := by
  have hhash : (Vector.ofFn fun i : Fin 8 => bewordAt s₁.record (3 + 4 * i.val)) = s₁.h := by
    ext i hi : 1
    rw [Vector.getElem_ofFn]
    exact bewordAt_of_bytes (record_hash s₁ ⟨i, hi⟩)
  have hcounter : #v[bewordAt s₁.record 35, bewordAt s₁.record 39] = s₁.c := by
    ext i hi : 1
    match i, hi with
    | 0, _ => exact bewordAt_of_bytes (record_counter s₁ 0)
    | 1, _ => exact bewordAt_of_bytes (record_counter s₁ 1)
  have hblock : padded 64 (s₁.record.drop 44) = s₁.block := by
    ext i hi : 1
    rw [padded_drop_get]
    exact record_block s₁ ⟨i, hi⟩
  rw [State.restored, hhash, hcounter, hblock]

theorem execUnmarshal_record (s₁ s₂ : State) (hsize : 1 ≤ s₁.size.val) :
    execUnmarshal s₁.record s₂ = succeed [] (s₂.restored s₁.record s₁.size s₁.offset) :=
  execUnmarshal_good rfl (record_length s₁) (record_size s₁) (record_offset s₁) hsize s₂

/-- The invariant makes the key register of an unkeyed digest zero (R14, R21). -/
theorem key_of_unkeyed {s : State} (hinv : s.ConfigValid) (hc : s.constructed = true) (hk : s.keylen = 0) :
    s.key = Vector.replicate 32 0 := by
  obtain ⟨-, hkey⟩ := hinv hc
  ext i hi : 1
  rw [Vector.getElem_replicate]
  exact hkey ⟨i, hi⟩ (by rw [hk]; exact Nat.zero_le i)

/-- Settles O29: MARSHAL answers the record, which passes UNMARSHAL's tests (`execUnmarshal_record`) and gives back the
registers it holds (`restored_record`); the key register of an unkeyed digest is zero on both sides. -/
theorem snapshotRoundTrip : Obligations.SnapshotRoundTrip := by
  intro s₁ s₂ hinv hc hk
  obtain ⟨hconfig, -, -⟩ := (inv_iff s₁).mp hinv
  obtain ⟨hsize, -⟩ := hconfig hc
  have hkeylen : s₁.keylen = 0 := Fin.ext hk
  refine ⟨_, s₁.record, _, execMarshal_unkeyed hc hk, execUnmarshal_record s₁ s₂ hsize, ?_⟩
  rw [restored_record, hkeylen, key_of_unkeyed hconfig hc hkeylen]
  rfl

end Sys2Proof.Machine
end

section
/-! PROOFS. Exceptions (60_exceptions.md): an error response changes nothing else (R131, R132), a command that needs a
digest (R142), and what a keyed engine shows of its key (R138). -/

namespace Sys2Proof.Machine

/-! ### A command without a digest (R142) -/

theorem whenConstructed_none {s : State} (h : s.constructed = false) (body : State → Host.Outcome State Fault Refusal) :
    whenConstructed s body = .next { s with outbox := s.outbox ++ [.command 7#32 []] } := by
  rw [whenConstructed, if_neg (Bool.eq_false_iff.mp h)]; rfl

/-- Settles O14: the meanings of the four commands all stand under `whenConstructed`. -/
theorem commandsNeedADigest : Obligations.CommandsNeedADigest := by
  intro s i hc hi
  obtain ⟨P, rfl⟩ | rfl | rfl | rfl := hi
  · rw [exec, execWrite, whenConstructed_none hc]
  · rw [exec, execSum, whenConstructed_none hc]
  · rw [exec, execReset, whenConstructed_none hc]
  · rw [exec, execMarshal, whenConstructed_none hc]

/-! ### An error response (R131, R132) -/

theorem Responds.of_respond {s u : State} {S : Status} {P Q : List Byte} {R : Word} (houtbox : u.outbox = s.outbox)
    (h : Responds s (u.respond S P) (.command R Q)) : R = responseHeader S P ∧ Q = P := by
  rw [Responds, State.respond_outbox, houtbox] at h
  obtain ⟨rfl, rfl⟩ := Response.command.inj (List.head_eq_of_cons_eq (List.append_cancel_left h))
  exact ⟨rfl, rfl⟩

/-- Settles O42: a command ends with an error and no other change, or with status OK (`exec_command_ends`), whose
header has a zero status. -/
theorem errorsChangeNothing : Obligations.ErrorsChangeNothing := by
  intro s t i R Q hi hexec hresponds hstatus
  have hends := exec_command_ends i s hi
  rw [hexec] at hends
  obtain ⟨E, -, ht⟩ | ⟨u, P, ht, hlen, houtbox, -, -⟩ := hends
  · cases ht
    obtain ⟨rfl, rfl⟩ := hresponds.of_respond rfl
    rfl
  · cases ht
    obtain ⟨rfl, rfl⟩ := hresponds.of_respond houtbox
    exact absurd (responseHeader_fields .ok (by omega)).1 hstatus

/-! ### Keyed engines (R138) -/

/-- Settles O44: the instruction keeps the configuration (`onlyConstructionConfigures`), so MARSHAL finds the key. -/
theorem keyedDigestsAreNeverExported : Obligations.KeyedDigestsAreNeverExported := by
  intro s t i hc hk hi hexec
  obtain ⟨-, hkeylen, -, hconstructed⟩ := onlyConstructionConfigures s t i hi hexec
  exact execMarshal_keyed (hconstructed.trans hc) (hkeylen ▸ hk)

/-- From every constructed keyed engine the operation, where it completes, adds the same responses. -/
def SameWhenKeyed (f : State → Host.Outcome State Fault Refusal) : Prop :=
  ∃ rs, ∀ s t, s.constructed = true → 0 < s.keylen.val → f s = .next t → t.outbox = s.outbox ++ rs

theorem sameWhenKeyed_of_eq {f g : State → Host.Outcome State Fault Refusal}
    (h : ∀ s, s.constructed = true → 0 < s.keylen.val → f s = g s) (hg : SameWhenKeyed g) : SameWhenKeyed f := by
  obtain ⟨rs, hrs⟩ := hg
  exact ⟨rs, fun s t hc hk hf => hrs s t hc hk (h s hc hk ▸ hf)⟩

theorem sameWhenKeyed_raise (E : Status) : SameWhenKeyed (raise E) :=
  ⟨[.command (responseHeader E []) []], fun _ _ _ _ h => by cases h; rfl⟩

theorem sameWhenKeyed_succeed {f : State → State} (Q : List Byte) (hf : ∀ s, (f s).outbox = s.outbox) :
    SameWhenKeyed fun s => succeed Q (f s) :=
  ⟨[.command (responseHeader .ok Q) Q], fun s _ _ _ h => by cases h; rw [State.respond_outbox, hf]⟩

theorem sameWhenKeyed_constructChecked (z : Fin 33) (P : List Byte) : SameWhenKeyed (constructChecked z P) := by
  unfold constructChecked
  split_ifs
  · exact sameWhenKeyed_raise .invalidKeySize
  · exact sameWhenKeyed_succeed [] (State.construct_outbox z P)

/-- No instruction but SUM answers anything it reads off a keyed engine: the operands alone decide the status, and
MARSHAL, which would answer the registers, fails. -/
theorem sameWhenKeyed_exec {i : Instr} (hi : i ≠ .sum) : SameWhenKeyed (exec i) := by
  cases i with
  | init z P =>
    change SameWhenKeyed (execInit z P)
    unfold execInit
    split_ifs
    · exact sameWhenKeyed_constructChecked _ P
    · exact sameWhenKeyed_raise .illegalCommand
  | init128 P =>
    change SameWhenKeyed (execInit128 P)
    unfold execInit128
    split_ifs
    · exact sameWhenKeyed_raise .keyRequired
    · exact sameWhenKeyed_constructChecked 16 P
  | init256 P => exact sameWhenKeyed_constructChecked 32 P
  | write P =>
    exact sameWhenKeyed_of_eq (fun s hc _ => execWrite_eq hc P) (sameWhenKeyed_succeed [] (State.written_outbox P))
  | sum => exact absurd rfl hi
  | reset => exact sameWhenKeyed_of_eq (fun s hc _ => execReset_eq hc) (sameWhenKeyed_succeed [] State.seed_outbox)
  | marshal =>
    exact sameWhenKeyed_of_eq (fun s hc hk => execMarshal_keyed hc hk) (sameWhenKeyed_raise .cannotMarshalKeyedState)
  | unmarshal P =>
    change SameWhenKeyed (execUnmarshal P)
    unfold execUnmarshal
    split_ifs
    · exact sameWhenKeyed_raise .invalidStateIdentifier
    · exact sameWhenKeyed_raise .invalidStateSize
    · exact sameWhenKeyed_succeed [] (State.restored_outbox P _ _)
    · exact sameWhenKeyed_raise .invalidStateField
  | compress fin hIn cIn data =>
    change SameWhenKeyed (execCompress fin hIn cIn data)
    unfold execCompress
    split_ifs
    · exact ⟨_, fun _ _ _ _ h => by cases h; rfl⟩
    · exact ⟨[], fun _ _ _ _ h => by cases h⟩
  | g r k =>
    refine ⟨[], fun s t _ _ h => ?_⟩
    cases hr : s.inside with
    | none => simp only [exec, execG, hr] at h; cases h
    | some run =>
      rw [exec, execG_eq r k hr] at h
      cases h
      exact (List.append_nil s.outbox).symm
  | reserved0 | reserved9 | reservedA | reservedB | reservedC | reservedD | reservedE | reservedF =>
    exact sameWhenKeyed_raise .illegalCommand

/-- Settles O45: the responses are fixed by the instruction alone (`sameWhenKeyed_exec`). -/
theorem onlyDigestsDependOnTheKey : Obligations.OnlyDigestsDependOnTheKey := by
  intro s₁ s₂ t₁ t₂ i hc₁ hc₂ hk₁ hk₂ hi hexec₁ hexec₂
  obtain ⟨rs, hrs⟩ := sameWhenKeyed_exec hi
  exact ⟨rs, hrs s₁ t₁ hc₁ hk₁ hexec₁, hrs s₂ t₂ hc₂ hk₂ hexec₂⟩

end Sys2Proof.Machine
end
